-- ==== Sys2Proof/Syntax.lean ====
section
/-! DEFINITION. The commands of NABHASH-CORE: one constructor for each row of spec/opcode_table.json
(spec/30_encoding.md rule R71). A command word carries no register number, immediate or mode field (R73),
so no constructor takes an argument. -/

namespace Sys2Proof

/-- The command set (R71). -/
inductive Instr where
  /-- RESET, word 0x00000001 (R120). -/
  | reset
  /-- WRITE, word 0x00000002 (R110). -/
  | write
  /-- FINALIZE, word 0x00000003, the mutating form (R124). -/
  | finalize
  /-- FINALIZE.KEEP, word 0x00000004, the form computed on a copy (R130). -/
  | finalizeKeep
  deriving DecidableEq, Repr

end Sys2Proof
end

