-- ==== Sys2Proof/Word.lean ====
section
/-! DEFINITION. The word types of NABHASH-CORE (spec/00_scope.md rules R8, R10 and R11) and nothing else.
Byte sequences of varying length are plain lists of bytes. -/

namespace Sys2Proof

/-- A byte: an unsigned 8-bit value (R10). -/
abbrev Byte := BitVec 8

/-- A 32-bit interface register or command word (R11, R30, R70). -/
abbrev Word := BitVec 32

/-- A 64-bit quantity: a host address, a source length, the byte counter (R25, R32, R50). -/
abbrev DWord := BitVec 64

/-- A lane: one of the four 16-byte sub-segments of STATE or of a block (R8, R16). -/
abbrev Lane := Vector Byte 16

/-- 64 bytes: the staging buffer, or one block of input (R8, R24). -/
abbrev Chunk := Vector Byte 64

/-- The 64-byte running state as its four lanes: lane `i` is bytes `16 i .. 16 i + 15` (R23). -/
abbrev DigestState := Vector Lane 4

end Sys2Proof
end

