-- ==== Sys2Proof/Decode.lean ====
section
/-! DEFINITION. The command decoder and encoder (spec/30_encoding.md rules R70 to R76). Decoding is total on 32-bit
words, by the whole word, and rejects by name. -/

namespace Sys2Proof

/-- Why a word is no command (R72, R74). Both are the same architectural IllegalCommand (R201). -/
inductive DecodeError where
  /-- OPCODE is one of 0x01..0x04, but a reserved bit of [31:8] is set (R72). -/
  | reservedBitSet
  /-- OPCODE is not one of 0x01..0x04 (R74). -/
  | unknownOpcode
  deriving DecidableEq, Repr

/-- OPCODE, bits 7:0 of a command word (R70). -/
def opcodeField (w : Word) : Byte := w.extractLsb' 0 8

/-- RSV, bits 31:8 of a command word (R70). -/
def reservedField (w : Word) : BitVec 24 := w.extractLsb' 8 24

/-- The command a word encodes: only the four words of R71, matched with mask 0xFFFFFFFF (R72, R104). -/
def decode (w : Word) : Except DecodeError Instr :=
  if w = 0x00000001#32 then .ok .reset
  else if w = 0x00000002#32 then .ok .write
  else if w = 0x00000003#32 then .ok .finalize
  else if w = 0x00000004#32 then .ok .finalizeKeep
  else if opcodeField w = 0x01#8 ∨ opcodeField w = 0x02#8 ∨ opcodeField w = 0x03#8 ∨ opcodeField w = 0x04#8 then
    .error .reservedBitSet
  else .error .unknownOpcode

/-- The OPCODE of each command (R71). -/
def opcodeOf : Instr → Byte
  | .reset => 0x01#8
  | .write => 0x02#8
  | .finalize => 0x03#8
  | .finalizeKeep => 0x04#8

/-- The command word: RSV zero above OPCODE (R70, R71). -/
def encode (i : Instr) : Word := 0#24 ++ opcodeOf i

/-- The instruction the decoder reads from an instruction of `nbits` bits whose bits are `w`; the bits above `nbits`
are zero. A command is one 32-bit word (R70), whose value the host writes to CMD whole, so no byte order enters. -/
def decodeTableWord (nbits w : Nat) : Option Instr :=
  match decode (BitVec.ofNat 32 (w % 2 ^ nbits)) with
  | .ok i => some i
  | .error _ => none

end Sys2Proof
end

