-- ==== Sys2Proof/Config.lean ====
section
/-! DEFINITION. The implementation parameters of spec/00_scope.md rule R9. The OPEN ones are opaque constants with
no body: no proof can see a value of theirs, so a theorem that mentions one holds for every value of it. The one the
spec decides, FIN_WRITEBACK, is a named Boolean. -/

namespace Sys2Proof

/-- A host capability flag (R181), named by a number. DESIGN CHOICE, log entry 3: the spec gives flags no form. -/
abbrev Capability := Nat

/-- One entry of ACCEL_BACKENDS: an identifier 1..255 and the capability it requires (R9, R180). -/
structure AccelBackend where
  /-- The identifier. -/
  id : Byte
  /-- The capability the backend requires. -/
  cap : Capability
  /-- Identifier 0 is the reference backend's (R180). -/
  id_ne_zero : id ≠ 0
  deriving DecidableEq, Repr

/-- INIT_LANE, the 16-byte initial pattern: OPEN (R9, R23, D3, I1). Log entry 1. -/
opaque Config.initLane : Lane

/-- The platform's choice of NUM_INSTANCES, less one: OPEN (R9, D2). Log entry 2. -/
opaque Config.furtherInstances : Nat

/-- NUM_INSTANCES, at least 1 (R9, D2), and at most the 2^58 windows of 64 bytes that fit side by side below 2^64 (R61;
log entry 2). -/
def Config.numInstances : Nat := Config.furtherInstances % 2 ^ 58 + 1

/-- The platform's choice of window bases: OPEN (R9, R61, D2). Log entry 2. -/
opaque Config.chosenBase : Nat → DWord

/-- The 64-byte windows of the first `n` bases do not overlap (R61). Addresses are compared without wrap: log entry 27. -/
abbrev WindowsApart (base : Nat → DWord) (n : Nat) : Prop :=
  ∀ j, j < n → ∀ k, k < n → j ≠ k → (base j).toNat + 64 ≤ (base k).toNat ∨ (base k).toNat + 64 ≤ (base j).toNat

/-- INST_BASE(i), the host bus address of window `i` (R9, R61): the platform's choice, which R61 requires to keep the
windows apart; for a choice that does not, which is no platform of the spec, the windows stand side by side from 0. So
INST_BASE keeps the windows apart and is otherwise any map. Log entry 2. -/
def Config.instBase (i : Nat) : DWord :=
  if WindowsApart Config.chosenBase Config.numInstances then Config.chosenBase i else BitVec.ofNat 64 (64 * i)

/-- CAPS at the first power-on: OPEN (R9, R181, D18). Log entry 3. -/
opaque Config.caps : List Capability

/-- ACCEL_BACKENDS, in order of preference: OPEN, may be empty (R9, R180, D18). Log entry 3. -/
opaque Config.accelBackends : List AccelBackend

/-- ACCEL_PERMITTED at the first power-on: OPEN (R9, R185, D20). Log entry 3. -/
opaque Config.accelPermitted : Bool

/-- FIN_WRITEBACK: decided false, kept as a named Boolean (R126, D14). Log entry 4. -/
def Config.finWriteback : Bool := false

end Sys2Proof
end

