-- ==== Sys2Proof/Machine/Backend.lean ====
section
/-! DEFINITION. The backend selector (spec/42_backend.md rules R180 to R185). -/

namespace Sys2Proof.Machine

/-- SELECT: the first accelerated backend in list order whose capability is present, if acceleration is permitted;
else the reference backend, identifier 0 (R181). -/
def selectBackend (caps : List Capability) (accel : List AccelBackend) (permitted : Bool) : Byte :=
  if permitted then
    match accel.find? fun e => caps.contains e.cap with
    | some e => e.id
    | none => 0
  else 0

end Sys2Proof.Machine
end

