-- ==== Sys2Proof/Machine/BusTypes.lean ====
section
/-! DEFINITION. What the host does to the block, as plain data: the registers of a window (spec/10_state.md rule
R30), the two bus operations (spec/30_encoding.md rule R77), what a read gives the host (spec/40_digest_commands.md rule
R101), and the events of the input queue. -/

namespace Sys2Proof.Machine

/-- The sixteen 32-bit registers of a window (R30). -/
inductive Reg where
  /-- CMD, offset 0x00 (R31). -/
  | cmd
  /-- STATUS, offset 0x04 (R33). -/
  | status
  /-- SRC_ADDR_LO, offset 0x08 (R32). -/
  | srcAddrLo
  /-- SRC_ADDR_HI, offset 0x0C (R32). -/
  | srcAddrHi
  /-- SRC_LEN_LO, offset 0x10 (R32). -/
  | srcLenLo
  /-- SRC_LEN_HI, offset 0x14 (R32). -/
  | srcLenHi
  /-- BACKEND_ID, offset 0x18 (R34). -/
  | backendId
  /-- INFO, offset 0x1C (R35). -/
  | info
  /-- RESULT`k`, offset 0x20 + 4 k (R36). -/
  | result (k : Fin 4)
  /-- A reserved register, offset 0x30 + 4 k (R37). -/
  | reserved (k : Fin 4)
  deriving DecidableEq, Repr

/-- Where a register access goes. -/
inductive Target where
  /-- Byte offset `off` of the window of digest instance `i`: an access the platform has routed already. -/
  | window (i : Nat) (off : Nat)
  /-- A host bus address; INST_BASE says whose window it lies in (R30, R61). Log entry 9. -/
  | address (a : DWord)
  deriving DecidableEq, Repr

/-- The two bus operations (R77). -/
inductive BusOp where
  /-- REGREAD (R101). -/
  | read
  /-- REGWRITE of a word (R102). -/
  | write (w : Word)
  deriving DecidableEq, Repr

/-- One register access of a host agent. -/
structure BusAccess where
  /-- The window and offset, or the bus address. -/
  target : Target
  /-- The width of the access in bits; only 32 is admitted (R58). -/
  width : Nat
  /-- Read or write. -/
  op : BusOp
  deriving DecidableEq, Repr

/-- What a REGREAD gives the host (R101). -/
inductive Reply where
  /-- The word the register reads as. -/
  | word (w : Word)
  /-- A read of RESULT`k` while RV = 0, which the model treats as a fault (R36, R101, I7): the fault is recorded and no value
  is given (spec/93_implementation_defined.md on `fault`). Nothing says which word the hardware returns. Log entry 21. -/
  | readFault (k : Fin 4)
  deriving DecidableEq, Repr

/-- What a host agent, or the platform, does next (R20, R77, R13, R230). Which host agent it is, is not kept: every
agent that reaches a window may do everything (R209). -/
inductive HostEvent where
  /-- A register access. -/
  | access (a : BusAccess)
  /-- The host stores bytes to its own memory, byte `k` at `addr + k` (R13). -/
  | memWrite (addr : DWord) (bytes : List Byte)
  /-- Power-on, with the capability flags and the permission the platform presents to the selector (R230, R233). -/
  | powerOn (caps : List Capability) (accelPermitted : Bool)
  deriving DecidableEq, Repr

end Sys2Proof.Machine
end

