-- ==== Sys2Proof/Machine/Bytes.lean ====
section
/-! DEFINITION. Byte-order and byte-sequence helpers (spec/00_scope.md rules R10 to R12, spec/20_memory.md rules R53
to R56). -/

namespace Sys2Proof.Machine

/-- `zeros(n)` (R10). -/
def zeros (n : Nat) : List Byte := List.replicate n 0

/-- The word whose bits 7:0 are `b0`, 15:8 `b1`, 23:16 `b2` and 31:24 `b3`: little-endian order (R11). -/
def wordLE (b0 b1 b2 b3 : Byte) : Word := b3 ++ b2 ++ b1 ++ b0

/-- The word whose most significant byte is `b0`: big-endian order (R11). -/
def wordBE (b0 b1 b2 b3 : Byte) : Word := b0 ++ b1 ++ b2 ++ b3

/-- Bits `8 j + 7 .. 8 j` of a 32-bit word (R11). -/
def wordByte (w : Word) (j : Nat) : Byte := w.extractLsb' (8 * j) 8

/-- Bits `8 k + 7 .. 8 k` of a 64-bit value: byte `k` of `LE64` (R11). -/
def dwordByte (v : DWord) (k : Nat) : Byte := v.extractLsb' (8 * k) 8

/-- `LE64(v)`, the 8-byte little-endian sequence of a 64-bit value (R11). -/
def le64 (v : DWord) : List Byte := (List.range 8).map (dwordByte v)

/-- The lane that holds the first sixteen bytes of a sequence (zero where the sequence is shorter). -/
def laneOfList (l : List Byte) : Lane := Vector.ofFn fun j => l.getD j.val 0

/-- The 64 bytes that a sequence of 64 bytes gives (zero where the sequence is shorter). -/
def chunkOfList (l : List Byte) : Chunk := Vector.ofFn fun j => l.getD j.val 0

/-- `lane_i` of 64 bytes: bytes `16 i .. 16 i + 15` (R12). -/
def chunkLane (x : Chunk) (i : Fin 4) : Lane := Vector.ofFn fun j => x[16 * i.val + j.val]

/-- The four lanes of 64 bytes (R12, R23). -/
def stateOfChunk (x : Chunk) : DigestState := Vector.ofFn fun i => chunkLane x i

/-- The 64 bytes of a state, lane 0 first (R12, R23). -/
def stateBytes (s : DigestState) : List Byte := (s.toList.map Vector.toList).flatten

/-- Bytewise exclusive or of two lanes (R11). -/
def xorLane (a b : Lane) : Lane := Vector.ofFn fun j => a[j] ^^^ b[j]

/-- `BUF[off .. off + |p| - 1] <- p`: the bytes of `p` from index `off` on, every other byte kept (R111). -/
def overlay (x : Chunk) (off : Nat) (p : List Byte) : Chunk :=
  Vector.ofFn fun j => if off ≤ j.val ∧ j.val < off + p.length then p.getD (j.val - off) 0 else x[j]

end Sys2Proof.Machine
end

