-- ==== Sys2Proof/Machine/State.lean ====
section
/-! DEFINITION. The state of NABHASH-CORE as plain data (spec/10_state.md), the reasons a step can stop, and the state
right after power-on (spec/70_reset_and_hazards.md rules R230 and R231). -/

namespace Sys2Proof.Machine

/-- Why a step has no next state though the access has a meaning. -/
inductive Fault where
  /-- Raised by WRITE when host memory does not admit a source byte: the WRITE has no step (R51, R203, I9). Safe: no claim
  about what such a WRITE does can be proved. `step` takes it up: the instance is stuck and the others run on (R212). Log
  entries 6 and 7. -/
  | sourceNotAdmitted
  deriving DecidableEq, Repr

/-- Why the model gives an event no meaning. -/
inductive Refusal where
  /-- Raised by `exec` for a command that has no meaning yet. Safe. No arm answers it. -/
  | notModelled (mnemonic : String)
  /-- Raised by a register access that is not 32 bits wide (R58, R103, I8). Safe. Log entry 22. -/
  | accessWidth
  /-- Raised by a register access at an offset that is not a multiple of 4 (R58, R103, I8). Safe. Log entry 22. -/
  | accessMisaligned
  /-- Raised by a register access beyond offset 0x3F of a window (R58, R103, I8). Safe. Log entry 22. -/
  | accessOutsideWindow
  /-- Raised by an access at a host bus address that lies in no window (R30, R61). Safe. Log entry 9. -/
  | addressInNoWindow
  /-- Raised by an access to, or a command on, an instance that does not exist (R9, R212). Safe. Log entry 2. -/
  | noSuchInstance
  /-- Raised by a host store that would pass the top of host memory (R50). Safe. Log entry 24. -/
  | hostStoreOutsideMemory
  deriving DecidableEq, Repr

/-- An entry of the model's fault log: an exception that was raised (R40, R201, R202). -/
inductive FaultRecord where
  /-- IllegalCommand(w), cause code 1 (R201). -/
  | illegalCommand (w : Word)
  /-- SourceRange(addr, len), cause code 2 (R202). -/
  | sourceRange (addr len : DWord)
  deriving DecidableEq, Repr

/-- Host memory: (address, byte) cells, addresses strictly rising. An unlisted address has no value. -/
abbrev Memory := List Host.Cell

/-- One digest instance: its digest state (R23 to R26), its interface registers (R30 to R36), the model's fault log
(R40), and whether it is stuck (R203). CMD, BACKEND_ID, INFO and the reserved registers hold nothing of their own. -/
structure Digest where
  /-- STATE (R23). -/
  state : DigestState
  /-- BUF, the staging buffer (R24). -/
  buf : Chunk
  /-- LEN, the byte counter (R25). -/
  len : DWord
  /-- NBUF, the staged-byte count (R26). -/
  nbuf : Fin 64
  /-- STATUS.RV (R33). -/
  rv : Bool
  /-- STATUS.ILL (R33). -/
  ill : Bool
  /-- STATUS.RANGE (R33). -/
  range : Bool
  /-- SRC_ADDR_LO (R32). -/
  srcAddrLo : Word
  /-- SRC_ADDR_HI (R32). -/
  srcAddrHi : Word
  /-- SRC_LEN_LO (R32). -/
  srcLenLo : Word
  /-- SRC_LEN_HI (R32). -/
  srcLenHi : Word
  /-- RESULT0..RESULT3 (R36). -/
  result : Vector Word 4
  /-- The model's fault log, oldest entry first (R40). -/
  faultLog : List FaultRecord
  /-- The instance is stuck on a WRITE whose source memory refused a byte (R203). Log entry 7. -/
  stuck : Bool
  deriving DecidableEq, Repr

/-- The whole machine. -/
structure State where
  /-- The digest instances, in order of their index (R20, R212). -/
  digests : List Digest
  /-- BACKEND, shared by all instances (R29). -/
  backend : Byte
  /-- Host memory (R38, R50). -/
  mem : Memory
  /-- The host events that have not reached the block yet, first to come first. Log entry 8. -/
  pending : List HostEvent
  /-- The index of the instance whose access is being served. Log entry 10. -/
  active : Nat
  /-- What REGREADs have given the host, oldest first: words, and the read faults recorded in their place. Log entries 11
  and 21. -/
  replies : List Reply
  /-- The accesses that reached a stuck instance, the stuck CMD write among them, oldest first: none of them completes
  (R203, R240). Log entry 7. -/
  held : List BusAccess
  deriving DecidableEq, Repr

/-- The initial running state: INIT_LANE four times (R23). -/
def initialState : DigestState := Vector.replicate 4 Config.initLane

/-- The power-on state of an instance, the source's `new()` (R231). RESULT is unspecified there: DESIGN CHOICE zero,
unsafe, log entry 5; a read of it gives no value while RV = 0. -/
def Digest.powerOn : Digest where
  state := initialState
  buf := Vector.replicate 64 0
  len := 0
  nbuf := 0
  rv := false
  ill := false
  range := false
  srcAddrLo := 0
  srcAddrHi := 0
  srcLenLo := 0
  srcLenHi := 0
  result := Vector.replicate 4 0
  faultLog := []
  stuck := false

/-- The machine right after power-on, with the windows open (R230, R231). Nothing is listed in host memory (log entry 6)
and no host event is pending (log entry 8). -/
def State.reset : State where
  digests := List.replicate Config.numInstances Digest.powerOn
  backend := selectBackend Config.caps Config.accelBackends Config.accelPermitted
  mem := []
  pending := []
  active := 0
  replies := []
  held := []

end Sys2Proof.Machine
end

