-- ==== Sys2Proof/Machine/Operands.lean ====
section
/-! DEFINITION. WRITE's operands, read from the instance's registers (spec/10_state.md rule R32, spec/30_encoding.md
rule R73). No other command has operands. -/

namespace Sys2Proof.Machine

/-- `SRC_ADDR = SRC_ADDR_HI << 32 | SRC_ADDR_LO` (R32, R73). -/
def srcAddr (d : Digest) : DWord := d.srcAddrHi ++ d.srcAddrLo

/-- `SRC_LEN = SRC_LEN_HI << 32 | SRC_LEN_LO` (R32, R73). -/
def srcLen (d : Digest) : DWord := d.srcLenHi ++ d.srcLenLo

/-- The source range passes the top of the host address space: `n > 0` and `a + n > 2^64`, the sum taken without wrap
(R110, R202). -/
def sourceOutOfRange (a n : DWord) : Bool := decide (0 < n.toNat ∧ 2 ^ 64 < a.toNat + n.toNat)

end Sys2Proof.Machine
end

