-- ==== Sys2Proof/Machine/Flags.lean ====
section
/-! DEFINITION. The status bits (spec/10_state.md rules R22 and R33): the word STATUS reads as, and the setting and
clearing of its bits. The block has no arithmetic flag. -/

namespace Sys2Proof.Machine

/-- STATUS as the host reads it: `zext_32(RANGE<<2 | ILL<<1 | RV)` (R33, R101). -/
def statusWord (d : Digest) : Word :=
  0#29 ++ BitVec.ofBool d.range ++ BitVec.ofBool d.ill ++ BitVec.ofBool d.rv

/-- Sets the sticky bit of an exception: ILL for IllegalCommand, RANGE for SourceRange (R201, R202). -/
def setSticky (r : FaultRecord) (d : Digest) : Digest :=
  match r with
  | .illegalCommand _ => { d with ill := true }
  | .sourceRange _ _ => { d with range := true }

/-- Clears ILL and RANGE and keeps RV (R120, R207). -/
def clearSticky (d : Digest) : Digest := { d with ill := false, range := false }

end Sys2Proof.Machine
end

