-- ==== Sys2Proof/Machine/Ops.lean ====
section
/-! DEFINITION. The named operations over memory and instances: host memory reads and stores (spec/20_memory.md),
running a command on the active instance, raising an exception (spec/60_exceptions.md), and power-on
(spec/70_reset_and_hazards.md rule R230). -/

namespace Sys2Proof.Machine

/-- The canonical form of host memory: addresses strictly rising and inside the 2^64 bytes of R50. An unlisted address
has no value, so no entry can equal what an unlisted address reads as. -/
abbrev Memory.wf (m : Memory) : Prop := m.Pairwise (fun x y => x.1 < y.1) ∧ ∀ c ∈ m, c.1 < 2 ^ 64

/-- `MemRead(a, 1)` (R51): the byte at host address `a`, or nothing where host memory does not admit the read. -/
def memRead : Memory → Nat → Option Byte
  | [], _ => none
  | (k, b) :: rest, a => if k = a then some b else memRead rest a

/-- `[MemRead(a + k, 1) for k = 0 .. n-1]`, ascending, each byte once; nothing if any read is refused (R60, R110). -/
def memReadRange (m : Memory) (a : Nat) : Nat → Option (List Byte)
  | 0 => some []
  | n + 1 =>
    match memRead m a with
    | none => none
    | some b =>
      match memReadRange m (a + 1) n with
      | none => none
      | some bs => some (b :: bs)

/-- The host stores one byte; the canonical form is kept (R13). -/
def memWrite : Memory → Nat → Byte → Memory
  | [], a, b => [(a, b)]
  | (k, c) :: rest, a, b =>
    if a < k then (a, b) :: (k, c) :: rest
    else if a = k then (a, b) :: rest
    else (k, c) :: memWrite rest a b

/-- `MemWrite(a, n, v)`: the host stores the bytes of `v`, byte `k` at `a + k` (R13). -/
def memWriteRange : Memory → Nat → List Byte → Memory
  | m, _, [] => m
  | m, a, b :: bs => memWriteRange (memWrite m a b) (a + 1) bs

/-- Puts `d` in the place of the active instance; every other instance is kept (R28). -/
def State.setActive (s : State) (d : Digest) : State := { s with digests := s.digests.set s.active d }

/-- Runs `f` on the active instance. An index past NUM_INSTANCES names no instance (R9). -/
def onActive (s : State) (f : Digest → Host.Outcome Digest Fault Refusal) : Host.Outcome State Fault Refusal :=
  match s.digests[s.active]? with
  | none => .refused .noSuchInstance
  | some d =>
    match f d with
    | .next d' => .next (s.setActive d')
    | .fault r => .fault r
    | .refused r => .refused r

/-- Taking an exception: its sticky STATUS bit is set and the model's fault log grows by the record; nothing is saved, no
mode changes and no control is transferred (R40, R201, R202, R206). There is no return from it (R207). -/
def raiseException (r : FaultRecord) (d : Digest) : Digest :=
  { setSticky r d with faultLog := d.faultLog ++ [r] }

/-- A stuck instance accepts no access: the access is held and does not complete (R203). Log entry 7. -/
def State.hold (s : State) (i off : Nat) (op : BusOp) : State := { s with held := s.held ++ [⟨.window i off, 32, op⟩] }

/-- The active instance, `d`, is stuck in the access at offset `off`, which does not complete: no partial effect, no
status bit (R203). The other instances are as before (R212). Log entry 7. -/
def State.becomeStuck (s : State) (d : Digest) (off : Nat) (op : BusOp) : State :=
  (s.setActive { d with stuck := true }).hold s.active off op

/-- Power-on: the selector runs, then every instance is put into its power-on state (R230, R231). The fault log is
kept, since not even power-on removes an entry (R40; log entry 12). A stuck instance is stuck no longer. Host memory is
the host's own and is kept, and so are the accesses held (log entry 13). -/
def powerOnState (caps : List Capability) (permitted : Bool) (s : State) : State :=
  { s with
    digests := s.digests.map fun d => { Digest.powerOn with faultLog := d.faultLog }
    backend := selectBackend caps Config.accelBackends permitted }

end Sys2Proof.Machine
end

