-- ==== Sys2Proof/Machine/Aes.lean ====
section
/-! DEFINITION. The AES round primitive (spec/41_transform.md rules R140 to R148): field arithmetic, S-box, SubBytes,
ShiftRows, MixColumns, AESRound, and its table form. The definitions are those the spec supplies from general knowledge
(93_implementation_defined.md G1 to G6). Log entry 20. -/

namespace Sys2Proof.Machine

/-- Multiplication by 2 in GF(2^8) modulo 0x11B (R141). -/
def xtime (a : Byte) : Byte := (a <<< 1) ^^^ (if a.msb then 0x1B#8 else 0#8)

/-- Multiplication by 3 in GF(2^8) (R141). -/
def mulBy3 (a : Byte) : Byte := xtime a ^^^ a

/-- Multiplication in GF(2^8) by the lowest `n` bits of `b`, by repeated `xtime` (R141). -/
def gfMulBits : Nat → Byte → Byte → Byte
  | 0, _, _ => 0
  | n + 1, a, b => (if b.getLsbD 0 then a else 0) ^^^ gfMulBits n (xtime a) (b >>> 1)

/-- Multiplication in GF(2^8) (R141). -/
def gfMul (a b : Byte) : Byte := gfMulBits 8 a b

/-- Squaring `n` times, multiplying by `a` after each: `gfPow n a` is `a` to the power `2^(n+1) - 1`. -/
def gfPow : Nat → Byte → Byte
  | 0, a => a
  | n + 1, a => gfMul (gfMul (gfPow n a) (gfPow n a)) a

/-- The multiplicative inverse in GF(2^8), 0 mapped to 0 (R142): the power 254 of `a`, the square of its power 127. -/
def gfInv (a : Byte) : Byte := gfMul (gfPow 6 a) (gfPow 6 a)

/-- The S-box by its algebraic definition (R142). -/
def sboxAlgebraic (a : Byte) : Byte :=
  let b := gfInv a
  b ^^^ b.rotateLeft 1 ^^^ b.rotateLeft 2 ^^^ b.rotateLeft 3 ^^^ b.rotateLeft 4 ^^^ 0x63#8

/-- Rows 0 to 3 of the S-box table (R142): row = high nibble, column = low nibble. -/
def sboxRowsA : List (List Byte) :=
  [[0x63, 0x7c, 0x77, 0x7b, 0xf2, 0x6b, 0x6f, 0xc5, 0x30, 0x01, 0x67, 0x2b, 0xfe, 0xd7, 0xab, 0x76],
   [0xca, 0x82, 0xc9, 0x7d, 0xfa, 0x59, 0x47, 0xf0, 0xad, 0xd4, 0xa2, 0xaf, 0x9c, 0xa4, 0x72, 0xc0],
   [0xb7, 0xfd, 0x93, 0x26, 0x36, 0x3f, 0xf7, 0xcc, 0x34, 0xa5, 0xe5, 0xf1, 0x71, 0xd8, 0x31, 0x15],
   [0x04, 0xc7, 0x23, 0xc3, 0x18, 0x96, 0x05, 0x9a, 0x07, 0x12, 0x80, 0xe2, 0xeb, 0x27, 0xb2, 0x75]]

/-- Rows 4 to 7 of the S-box table (R142): row = high nibble, column = low nibble. -/
def sboxRowsB : List (List Byte) :=
  [[0x09, 0x83, 0x2c, 0x1a, 0x1b, 0x6e, 0x5a, 0xa0, 0x52, 0x3b, 0xd6, 0xb3, 0x29, 0xe3, 0x2f, 0x84],
   [0x53, 0xd1, 0x00, 0xed, 0x20, 0xfc, 0xb1, 0x5b, 0x6a, 0xcb, 0xbe, 0x39, 0x4a, 0x4c, 0x58, 0xcf],
   [0xd0, 0xef, 0xaa, 0xfb, 0x43, 0x4d, 0x33, 0x85, 0x45, 0xf9, 0x02, 0x7f, 0x50, 0x3c, 0x9f, 0xa8],
   [0x51, 0xa3, 0x40, 0x8f, 0x92, 0x9d, 0x38, 0xf5, 0xbc, 0xb6, 0xda, 0x21, 0x10, 0xff, 0xf3, 0xd2]]

/-- Rows 8 to b of the S-box table (R142): row = high nibble, column = low nibble. -/
def sboxRowsC : List (List Byte) :=
  [[0xcd, 0x0c, 0x13, 0xec, 0x5f, 0x97, 0x44, 0x17, 0xc4, 0xa7, 0x7e, 0x3d, 0x64, 0x5d, 0x19, 0x73],
   [0x60, 0x81, 0x4f, 0xdc, 0x22, 0x2a, 0x90, 0x88, 0x46, 0xee, 0xb8, 0x14, 0xde, 0x5e, 0x0b, 0xdb],
   [0xe0, 0x32, 0x3a, 0x0a, 0x49, 0x06, 0x24, 0x5c, 0xc2, 0xd3, 0xac, 0x62, 0x91, 0x95, 0xe4, 0x79],
   [0xe7, 0xc8, 0x37, 0x6d, 0x8d, 0xd5, 0x4e, 0xa9, 0x6c, 0x56, 0xf4, 0xea, 0x65, 0x7a, 0xae, 0x08]]

/-- Rows c to f of the S-box table (R142): row = high nibble, column = low nibble. -/
def sboxRowsD : List (List Byte) :=
  [[0xba, 0x78, 0x25, 0x2e, 0x1c, 0xa6, 0xb4, 0xc6, 0xe8, 0xdd, 0x74, 0x1f, 0x4b, 0xbd, 0x8b, 0x8a],
   [0x70, 0x3e, 0xb5, 0x66, 0x48, 0x03, 0xf6, 0x0e, 0x61, 0x35, 0x57, 0xb9, 0x86, 0xc1, 0x1d, 0x9e],
   [0xe1, 0xf8, 0x98, 0x11, 0x69, 0xd9, 0x8e, 0x94, 0x9b, 0x1e, 0x87, 0xe9, 0xce, 0x55, 0x28, 0xdf],
   [0x8c, 0xa1, 0x89, 0x0d, 0xbf, 0xe6, 0x42, 0x68, 0x41, 0x99, 0x2d, 0x0f, 0xb0, 0x54, 0xbb, 0x16]]

/-- The S-box table of R142. -/
def sboxRows : List (List Byte) := sboxRowsA ++ sboxRowsB ++ sboxRowsC ++ sboxRowsD

/-- The AES forward S-box, read from the table of R142. -/
def sbox (a : Byte) : Byte := (sboxRows.getD (a.toNat / 16) []).getD (a.toNat % 16) 0

/-- SubBytes (R143). -/
def subBytes (x : Lane) : Lane := Vector.ofFn fun j => sbox x[j]

/-- ShiftRows: output byte `4 c + r` is input byte `4 ((c + r) mod 4) + r` (R140, R144). -/
def shiftRows (x : Lane) : Lane :=
  Vector.ofFn fun j => x[4 * ((j.val / 4 + j.val % 4) % 4) + j.val % 4]'(by omega)

/-- Row `r` of the MixColumns product of one column (R145). -/
def mixRow (r : Nat) (a0 a1 a2 a3 : Byte) : Byte :=
  match r with
  | 0 => xtime a0 ^^^ mulBy3 a1 ^^^ a2 ^^^ a3
  | 1 => a0 ^^^ xtime a1 ^^^ mulBy3 a2 ^^^ a3
  | 2 => a0 ^^^ a1 ^^^ xtime a2 ^^^ mulBy3 a3
  | _ => mulBy3 a0 ^^^ a1 ^^^ a2 ^^^ xtime a3

/-- MixColumns: byte `4 c + r` is row `r` of the product of column `c`, bytes `4 c .. 4 c + 3` (R140, R145). -/
def mixColumns (x : Lane) : Lane :=
  Vector.ofFn fun j =>
    mixRow (j.val % 4) (x[4 * (j.val / 4)]'(by omega)) (x[4 * (j.val / 4) + 1]'(by omega))
      (x[4 * (j.val / 4) + 2]'(by omega)) (x[4 * (j.val / 4) + 3]'(by omega))

/-- The keyless round `G = MixColumns ∘ ShiftRows ∘ SubBytes` (R148). -/
def keylessRound (d : Lane) : Lane := mixColumns (shiftRows (subBytes d))

/-- `AESRound(key = k, data = d) = MixColumns(ShiftRows(SubBytes(d))) ⊕ k` (R146). -/
def aesRound (k d : Lane) : Lane := xorLane (keylessRound d) k

/-- `F(x) = AESRound(key = x, data = x)` (R148). -/
def selfRound (x : Lane) : Lane := aesRound x x

/-- `Te0[a]` (R147). -/
def te0 (a : Byte) : Word := wordBE (xtime (sbox a)) (sbox a) (sbox a) (mulBy3 (sbox a))

/-- `Te_j[a] = ror32(Te0[a], 8 j)` (R147). -/
def te (j : Nat) (a : Byte) : Word := (te0 a).rotateRight (8 * j)

/-- The big-endian word of column `c` of a lane (R54, R140). -/
def columnWord (x : Lane) (c : Fin 4) : Word :=
  wordBE (x[4 * c.val]) (x[4 * c.val + 1]) (x[4 * c.val + 2]) (x[4 * c.val + 3])

/-- Output column `c` of the round in table form (R147). Byte 3 of a word is its bits 31:24. -/
def tableColumn (k d : Lane) (c : Fin 4) : Word :=
  te 0 (wordByte (columnWord d c) 3) ^^^ te 1 (wordByte (columnWord d (c + 1)) 2) ^^^
    te 2 (wordByte (columnWord d (c + 2)) 1) ^^^ te 3 (wordByte (columnWord d (c + 3)) 0) ^^^ columnWord k c

/-- The round in table form, each output column written back big-endian (R147). `aesRound` governs. -/
def aesRoundTable (k d : Lane) : Lane :=
  Vector.ofFn fun j => wordByte (tableColumn k d ⟨j.val / 4, by omega⟩) (3 - j.val % 4)

end Sys2Proof.Machine
end

