-- ==== Sys2Proof/Machine/Transform.lean ====
section
/-! DEFINITION. The reference transform (spec/41_transform.md rules R150 to R160): Block and FinalizeTransform. They
mean the same whatever the value of BACKEND (spec/42_backend.md rule R184, log entry 18). -/

namespace Sys2Proof.Machine

/-- One chunk of Block: every lane of the state is the data of a round keyed by the chunk's lane (R150). -/
def blockChunk (S : DigestState) (chunk : Chunk) : DigestState :=
  Vector.ofFn fun i => aesRound (chunkLane chunk i) S[i]

/-- Chunk `j` of the data: `D[64 j .. 64 j + 63]` (R150). -/
def chunkAt (D : List Byte) (j : Nat) : Chunk := chunkOfList ((D.drop (64 * j)).take 64)

/-- The whole chunks of the data, left to right (R150). -/
def wholeChunks (D : List Byte) : List Chunk := (List.range (D.length / 64)).map (chunkAt D)

/-- The loop of Block over the whole chunks of the data (R150). -/
def absorb (S : DigestState) (D : List Byte) : DigestState := (wholeChunks D).foldl blockChunk S

/-- Block(S, D), refused when the length of the data is not a multiple of 64 (R150, R151 item 4, I18). -/
def block (S : DigestState) (D : List Byte) : Option DigestState :=
  if D.length % 64 = 0 then some (absorb S D) else none

/-- One lane of the length block: `LE64(L) ++ zeros(8)` (R155). -/
def lengthLane (L : DWord) : Lane := laneOfList (le64 L ++ zeros 8)

/-- Step 1 of FinalizeTransform: the length block, four times the length lane, XORed into the state (R155). -/
def injectLength (S : DigestState) (L : DWord) : DigestState := Vector.ofFn fun i => xorLane S[i] (lengthLane L)

/-- Step 2 of FinalizeTransform: the mixing schedule, each step reading the lanes the step before left (R156). -/
def mixSchedule (S0 : DigestState) : DigestState :=
  let S1 := S0.set 1 (aesRound S0[1] S0[0])
  let S2 := S1.set 3 (aesRound S1[1] S1[2])
  let S3 := S2.set 1 (aesRound S2[1] S2[0])
  let S4a := S3.set 0 (aesRound S3[0] S3[0])
  let S4b := S4a.set 0 (aesRound S4a[0] S4a[0])
  S4b.set 0 (aesRound S4b[0] S4b[0])

/-- FinalizeTransform(S, L) returns 64 bytes (R155, R156, R157). -/
def finalizeTransform (S : DigestState) (L : DWord) : DigestState := mixSchedule (injectLength S L)

end Sys2Proof.Machine
end

