-- ==== Sys2Proof/Machine/DigestOps.lean ====
section
/-! DEFINITION. What the commands do to one digest instance (spec/40_digest_commands.md): DigestWrite, RESET, WRITE,
FINALIZE and FINALIZE.KEEP. -/

namespace Sys2Proof.Machine

/-- `LEN <- (LEN + n) mod 2^64` (R25, R111). -/
def countBytes (n : Nat) (d : Digest) : Digest := { d with len := d.len + BitVec.ofNat 64 n }

/-- Step (a) of DigestWrite: complete a partial block, and run Block on BUF when it reaches 64 bytes. Answers the
instance and the bytes still to write (R111). -/
def completePartial (d : Digest) (p : List Byte) : Digest × List Byte :=
  if d.nbuf.val = 0 then (d, p)
  else
    let m := min (64 - d.nbuf.val) p.length
    let buf := overlay d.buf d.nbuf.val (p.take m)
    if d.nbuf.val + m = 64 then
      ({ d with buf := buf, state := absorb d.state buf.toList, nbuf := 0 }, p.drop m)
    else ({ d with buf := buf, nbuf := Fin.ofNat 64 (d.nbuf.val + m) }, p.drop m)

/-- Step (b) of DigestWrite: the whole blocks of the bytes, in one Block call (R111). -/
def writeWholeBlocks (d : Digest) (p : List Byte) : Digest × List Byte :=
  if 64 ≤ p.length then
    let w := 64 * (p.length / 64)
    ({ d with state := absorb d.state (p.take w) }, p.drop w)
  else (d, p)

/-- Step (c) of DigestWrite: stage the leftover, if there is any (R111, C3). The bytes of BUF after it keep their old
values. -/
def stageLeftover (d : Digest) (p : List Byte) : Digest :=
  if p.length = 0 then d
  else { d with buf := overlay d.buf 0 p, nbuf := Fin.ofNat 64 p.length }

/-- DigestWrite(p) (R111). -/
def digestWrite (d : Digest) (p : List Byte) : Digest :=
  let a := completePartial (countBytes p.length d) p
  let b := writeWholeBlocks a.1 a.2
  stageLeftover b.1 b.2

/-- RESET on an instance (R120). -/
def resetDigest (d : Digest) : Digest :=
  clearSticky { d with state := initialState, buf := Vector.replicate 64 0, len := 0, nbuf := 0 }

/-- WRITE on an instance: the range check comes before any memory read (R110, R204). -/
def writeCommand (mem : Memory) (d : Digest) : Host.Outcome Digest Fault Refusal :=
  if sourceOutOfRange (srcAddr d) (srcLen d) then
    .next (raiseException (.sourceRange (srcAddr d) (srcLen d)) d)
  else
    match memReadRange mem (srcAddr d).toNat (srcLen d).toNat with
    | none => .fault .sourceNotAdmitted
    | some p => .next (digestWrite d p)

/-- The padding of FINALIZE: zero bytes up to a 64-byte boundary of LEN, through DigestWrite (R124). -/
def padDigest (d : Digest) : Digest :=
  if d.len.toNat % 64 = 0 then d else digestWrite d (zeros (64 - d.len.toNat % 64))

/-- The transformed state of FINALIZE: FinalizeTransform of the padded state and the length before padding (R124,
R125). -/
def finalTransform (d : Digest) : DigestState := finalizeTransform (padDigest d).state d.len

/-- The checksum, lane 0 of the transformed state (R124, R157). -/
def checksum (d : Digest) : Lane := (finalTransform d)[0]

/-- The four RESULT words of a checksum, little-endian (R36, R127). -/
def resultWords (x : Lane) : Vector Word 4 :=
  Vector.ofFn fun k => wordLE x[4 * k.val] x[4 * k.val + 1] x[4 * k.val + 2] x[4 * k.val + 3]

/-- Result delivery (R127). -/
def deliverResult (c : Lane) (d : Digest) : Digest := { d with result := resultWords c, rv := true }

/-- FINALIZE on an instance, under either value of FIN_WRITEBACK (R124, R126). -/
def finalizeDigest (writeback : Bool) (d : Digest) : Digest :=
  let padded := padDigest d
  let T := finalTransform d
  let kept := if writeback then { padded with state := T } else padded
  deliverResult T[0] kept

/-- FINALIZE.KEEP on an instance: the digest state is saved, FINALIZE's checksum computed, the digest state restored, and
the result delivered; FIN_WRITEBACK is not consulted (R130). -/
def finalizeKeepDigest (d : Digest) : Digest :=
  let padded := padDigest d
  let T := finalTransform d
  let restored := { padded with state := d.state, buf := d.buf, len := d.len, nbuf := d.nbuf }
  deliverResult T[0] restored

end Sys2Proof.Machine
end

