-- ==== Sys2Proof/Machine/Commands.lean ====
section
/-! DEFINITION. The meaning of each command, on the active instance, as one atomic step (spec/40_digest_commands.md rule
R104, spec/70_reset_and_hazards.md rule R240). -/

namespace Sys2Proof.Machine

/-- RESET (R120). -/
def execReset (s : State) : Host.Outcome State Fault Refusal := onActive s fun d => .next (resetDigest d)

/-- WRITE (R110). -/
def execWrite (s : State) : Host.Outcome State Fault Refusal := onActive s (writeCommand s.mem)

/-- FINALIZE (R124), with FIN_WRITEBACK as the hardware fixes it (R126). -/
def execFinalize (s : State) : Host.Outcome State Fault Refusal :=
  onActive s fun d => .next (finalizeDigest Config.finWriteback d)

/-- FINALIZE.KEEP (R130). -/
def execFinalizeKeep (s : State) : Host.Outcome State Fault Refusal :=
  onActive s fun d => .next (finalizeKeepDigest d)

end Sys2Proof.Machine
end

