-- ==== Sys2Proof/Machine/Dispatch.lean ====
section
/-! DEFINITION. One arm per command, each one direct call of its meaning (spec/40_digest_commands.md rule R104). -/

namespace Sys2Proof.Machine

def exec (i : Instr) (s : State) : Host.Outcome State Fault Refusal :=
  match i with
  | .reset => Sys2Proof.Machine.execReset s
  | .write => Sys2Proof.Machine.execWrite s
  | .finalize => Sys2Proof.Machine.execFinalize s
  | .finalizeKeep => Sys2Proof.Machine.execFinalizeKeep s

end Sys2Proof.Machine
end

