-- ==== Sys2Proof/Machine/Window.lean ====
section
/-! DEFINITION. The register window of an instance (spec/10_state.md rules R30 to R37, spec/40_digest_commands.md rules
R100 to R103), and the routing of a bus address to a window (spec/20_memory.md rule R61). -/

namespace Sys2Proof.Machine

/-- The register at an offset of a window: the sixteen 4-byte-aligned offsets of R30, and no other. -/
def regOfOffset : Nat → Option Reg
  | 0x00 => some .cmd
  | 0x04 => some .status
  | 0x08 => some .srcAddrLo
  | 0x0C => some .srcAddrHi
  | 0x10 => some .srcLenLo
  | 0x14 => some .srcLenHi
  | 0x18 => some .backendId
  | 0x1C => some .info
  | 0x20 => some (.result 0)
  | 0x24 => some (.result 1)
  | 0x28 => some (.result 2)
  | 0x2C => some (.result 3)
  | 0x30 => some (.reserved 0)
  | 0x34 => some (.reserved 1)
  | 0x38 => some (.reserved 2)
  | 0x3C => some (.reserved 3)
  | _ => none

/-- The offset of a register in its window (R30). -/
def regOffset : Reg → Nat
  | .cmd => 0x00
  | .status => 0x04
  | .srcAddrLo => 0x08
  | .srcAddrHi => 0x0C
  | .srcLenLo => 0x10
  | .srcLenHi => 0x14
  | .backendId => 0x18
  | .info => 0x1C
  | .result k => 0x20 + 4 * k.val
  | .reserved k => 0x30 + 4 * k.val

/-- INFO: OUTPUT_SIZE = 16 in bits 7:0, BLOCK_SIZE = 64 in bits 15:8 (R35). -/
def infoWord : Word := 0x00004010

/-- What a REGREAD of a register gives: its word, but for RESULT`k` while RV = 0, a fault that is recorded and gives no value
(R36, R101, I7; log entry 21). A read changes no state. -/
def readReg (backend : Byte) (d : Digest) : Reg → Reply
  | .cmd => .word 0
  | .status => .word (statusWord d)
  | .srcAddrLo => .word d.srcAddrLo
  | .srcAddrHi => .word d.srcAddrHi
  | .srcLenLo => .word d.srcLenLo
  | .srcLenHi => .word d.srcLenHi
  | .backendId => .word (0#24 ++ backend)
  | .info => .word infoWord
  | .result k => if d.rv then .word d.result[k] else .readFault k
  | .reserved _ => .word 0

/-- What a REGWRITE to a register other than CMD does to the instance: it stores into the SRC halves, and is ignored by
the read-only and reserved registers (R102). CMD holds no value (R31); a write to it issues a command elsewhere. -/
def writeReg (d : Digest) (r : Reg) (w : Word) : Digest :=
  match r with
  | .srcAddrLo => { d with srcAddrLo := w }
  | .srcAddrHi => { d with srcAddrHi := w }
  | .srcLenLo => { d with srcLenLo := w }
  | .srcLenHi => { d with srcLenHi := w }
  | .cmd => d
  | .status => d
  | .backendId => d
  | .info => d
  | .result _ => d
  | .reserved _ => d

/-- Bus address `a` lies in the 64-byte window based at `base` (R30). DESIGN CHOICE, log entry 27: the addresses are compared
without wrap, so where `base` lies within 63 bytes of 2^64 the offsets past the top have no bus address; the spec is silent
on such a window. -/
def inWindow (base a : DWord) : Bool := decide (base.toNat ≤ a.toNat ∧ a.toNat < base.toNat + 64)

/-- The window and offset of a bus address: the windows of instances 0 .. n-1 are tried in order (R30, R61). Those of
INST_BASE do not overlap, so at most one contains the address. -/
def resolveAddress (base : Nat → DWord) (n : Nat) (a : DWord) : Option (Nat × Nat) :=
  match (List.range n).find? fun i => inWindow (base i) a with
  | none => none
  | some i => some (i, a.toNat - (base i).toNat)

/-- Where an access goes: the instance's index and the offset in its window. -/
def routeTarget (base : Nat → DWord) (n : Nat) : Target → Option (Nat × Nat)
  | .window i off => some (i, off)
  | .address a => resolveAddress base n a

end Sys2Proof.Machine
end

