-- ==== Sys2Proof/Machine/Serve.lean ====
section
/-! DEFINITION. Serving one host event: issuing a command (spec/40_digest_commands.md rule R104), a register access
(rules R100 to R103), a host store (spec/00_scope.md rule R13) and power-on (spec/70_reset_and_hazards.md rule R230). -/

namespace Sys2Proof.Machine

/-- Command dispatch: word `w` has been written to CMD of the active instance. A legal word runs its command, any other
raises IllegalCommand (R104, R201). The word is decoded before any operand is examined (R204). -/
def issueCommand (w : Word) (s : State) : Host.Outcome State Fault Refusal :=
  match decode w with
  | .ok i => exec i s
  | .error _ => onActive s fun d => .next (raiseException (.illegalCommand w) d)

/-- A REGREAD of a register of instance `d` completes, raises nothing and changes no state of the block; what it gives goes to
the host (R101; log entry 11). -/
def serveRead (r : Reg) (d : Digest) (s : State) : Host.Outcome State Fault Refusal :=
  .next { s with replies := s.replies ++ [readReg s.backend d r] }

/-- A REGWRITE to a register of instance `d`, the active one (R102). -/
def serveWrite (r : Reg) (w : Word) (d : Digest) (s : State) : Host.Outcome State Fault Refusal :=
  match r with
  | .cmd => issueCommand w s
  | .status | .srcAddrLo | .srcAddrHi | .srcLenLo | .srcLenHi | .backendId | .info | .result _ | .reserved _ =>
    .next (s.setActive (writeReg d r w))

/-- What becomes of the machine when a REGWRITE to instance `d`, the active one, has outcome `o`: one that has no step leaves
its instance stuck, and the machine goes on (R203, R212); any other outcome stands. -/
def settleWrite (off : Nat) (w : Word) (d : Digest) (s : State) (o : Host.Outcome State Fault Refusal) :
    Host.Outcome State Fault Refusal :=
  match o with
  | .fault .sourceNotAdmitted => .next (s.becomeStuck d off (.write w))
  | other => other

/-- A register access at offset `off` of instance `i`'s window (R58, R100, R103). A stuck instance accepts none (R203). -/
def serveWindow (op : BusOp) (i off : Nat) (s : State) : Host.Outcome State Fault Refusal :=
  match s.digests[i]? with
  | none => .refused .noSuchInstance
  | some d =>
    if 0x40 ≤ off then .refused .accessOutsideWindow
    else
      match regOfOffset off with
      | none => .refused .accessMisaligned
      | some r =>
        if d.stuck then .next (s.hold i off op)
        else
          match op with
          | .read => serveRead r d { s with active := i }
          | .write w => settleWrite off w d { s with active := i } (serveWrite r w d { s with active := i })

/-- A register access of a host agent: only 32-bit accesses are admitted (R58). -/
def serveAccess (a : BusAccess) (s : State) : Host.Outcome State Fault Refusal :=
  if a.width = 32 then
    match routeTarget Config.instBase Config.numInstances a.target with
    | none => .refused .addressInNoWindow
    | some (i, off) => serveWindow a.op i off s
  else .refused .accessWidth

/-- A host event. A host store is served whatever commands are held: R243 keeps the source range of a WRITE unmodified until
its acknowledgement, and a WRITE that has no step (R203) is never acknowledged, so the spec gives that duty no end there.
DESIGN CHOICE (log entry 28): such a store has its plain effect on memory, and none on the stuck instance. -/
def serveEvent (e : HostEvent) (s : State) : Host.Outcome State Fault Refusal :=
  match e with
  | .access a => serveAccess a s
  | .memWrite addr bytes =>
    if addr.toNat + bytes.length ≤ 2 ^ 64 then .next { s with mem := memWriteRange s.mem addr.toNat bytes }
    else .refused .hostStoreOutsideMemory
  | .powerOn caps permitted => .next (powerOnState caps permitted s)

/-- The CMD write that issues word `w` to instance `i` (R31, R77). -/
def cmdWrite (i : Nat) (w : Word) : HostEvent := .access ⟨.window i 0x00, 32, .write w⟩

end Sys2Proof.Machine
end

