-- ==== Sys2Proof/Machine/Step.lean ====
section
/-! DEFINITION. One step of the machine: the next host event is served, or, when none is pending, nothing happens
(spec/60_exceptions.md rule R214). The block fetches no instructions (spec/10_state.md rule R21); the host's sequence of
register accesses plays the part of a program. Log entry 8. -/

namespace Sys2Proof.Machine

/-- One step. An access is served only between commands (R100, R240). -/
def step (s : State) : Host.Outcome State Fault Refusal :=
  match s.pending with
  | [] => .next s
  | e :: rest => serveEvent e { s with pending := rest }

/-- `s` with the command word that `nbits` and `w` give placed where `step` takes its next command: a CMD write to the
active instance, ahead of every other pending event. Log entry 8. -/
def State.withFetchWord (s : State) (nbits w : Nat) : State :=
  { s with pending := cmdWrite s.active (BitVec.ofNat 32 (w % 2 ^ nbits)) :: s.pending }

end Sys2Proof.Machine
end

