-- ==== Sys2Proof/Machine/Stream.lean ====
section
/-! DEFINITION. The input stream of a digest in the terms claims use (spec/10_state.md rule R24,
spec/40_digest_commands.md rules R112 and R132). No step calls these. -/

namespace Sys2Proof.Machine

/-- The valid bytes of BUF, `BUF[0 .. NBUF-1]` (R24). -/
def liveBytes (d : Digest) : List Byte := d.buf.toList.take d.nbuf.val

/-- The same STATE, LEN, NBUF and valid bytes of BUF; the stale bytes may differ (R24, R112, I14). -/
def SameStream (d e : Digest) : Prop :=
  d.state = e.state ∧ d.len = e.len ∧ d.nbuf = e.nbuf ∧ liveBytes d = liveBytes e

/-- `pad(m) = m ++ zeros((64 - (|m| mod 64)) mod 64)` (R132). -/
def padStream (m : List Byte) : List Byte := m ++ zeros ((64 - m.length % 64) % 64)

/-- `lane0(FinalizeTransform(Block(S, pad(m)), |m| mod 2^64))` (R132). -/
def streamHash (S : DigestState) (m : List Byte) : Lane :=
  (finalizeTransform (absorb S (padStream m)) (BitVec.ofNat 64 m.length))[0]

/-- `Hash(m)`, the checksum of the stream `m` (R132). -/
def hashOf (m : List Byte) : Lane := streamHash initialState m

end Sys2Proof.Machine
end

