-- ==== Sys2Proof/Safety.lean ====
section
/-! DEFINITION. What counts as a good state and a safe run of NABHASH-CORE, in the terms claims use. -/

namespace Sys2Proof.Machine

/-- `NBUF = LEN mod 64` (R27). -/
def Digest.CountsAgree (d : Digest) : Prop := d.nbuf.val = d.len.toNat % 64

/-- A record tells of an exception the rules raise: an illegal word (R74, R201) or a range past 2^64 (R202). -/
def FaultRecord.Justified : FaultRecord → Prop
  | .illegalCommand w => ∀ i : Instr, w ≠ encode i
  | .sourceRange a n => 0 < n.toNat ∧ 2 ^ 64 < a.toNat + n.toNat

/-- A sticky bit that is set has a record in the fault log that tells why (R40, R201, R202). -/
def Digest.StickyLogged (d : Digest) : Prop :=
  (d.ill = true → ∃ w, FaultRecord.illegalCommand w ∈ d.faultLog) ∧
    (d.range = true → ∃ a n, FaultRecord.sourceRange a n ∈ d.faultLog)

/-- What every step keeps of one instance. -/
def Digest.Inv (d : Digest) : Prop := d.CountsAgree ∧ d.StickyLogged ∧ ∀ r ∈ d.faultLog, r.Justified

/-- What every step keeps: host memory is canonical, the active index names an instance, and every instance meets its
own invariant. -/
def State.Inv (s : State) : Prop :=
  Memory.wf s.mem ∧ s.active < s.digests.length ∧ ∀ d ∈ s.digests, d.Inv

/-- The interface side of an instance is the same: status bits, SRC registers, RESULT, the fault log and whether it is stuck
(R33, R32, R36, R40, R203). -/
def SameInterface (d e : Digest) : Prop :=
  d.rv = e.rv ∧ d.ill = e.ill ∧ d.range = e.range ∧ d.srcAddrLo = e.srcAddrLo ∧ d.srcAddrHi = e.srcAddrHi ∧
    d.srcLenLo = e.srcLenLo ∧ d.srcLenHi = e.srcLenHi ∧ d.result = e.result ∧ d.faultLog = e.faultLog ∧
    d.stuck = e.stuck

/-- Everything outside the active instance is the same: the other instances, BACKEND, every byte of host memory, the
pending events, the active index, the replies and the accesses held. -/
def SameOutside (s t : State) : Prop :=
  t.digests.length = s.digests.length ∧ (∀ j, j ≠ s.active → t.digests[j]? = s.digests[j]?) ∧
    t.backend = s.backend ∧ (∀ a, memRead t.mem a = memRead s.mem a) ∧ t.pending = s.pending ∧
    t.active = s.active ∧ t.replies = s.replies ∧ t.held = s.held

/-- No fault is recorded, neither an exception raised (R40) nor a read of RESULT`k` while RV = 0 (I7): the premise a claim
about a run takes (D8). -/
def State.NoFaultRecorded (s : State) : Prop := (∀ d ∈ s.digests, d.faultLog = []) ∧ ∀ k, Reply.readFault k ∉ s.replies

end Sys2Proof.Machine
end

