-- ==== Sys2Proof/WellFormed.lean ====
section
/-! DEFINITION. Well-formed commands and well-formed host events. A command has no operand field, so every command
is well formed (spec/30_encoding.md rule R73); a register access is admitted only when it is 32 bits wide, aligned
and inside the window (spec/20_memory.md rule R58), and a host store must stay inside host memory (R50). -/

namespace Sys2Proof

/-- No command has an operand field that could be ill formed (R73). -/
def Instr.wellFormed : Instr → Bool
  | .reset => true
  | .write => true
  | .finalize => true
  | .finalizeKeep => true

namespace Machine

/-- An offset a window admits: a multiple of 4 within 0x00..0x3F (R58, R100). -/
def admittedOffset (off : Nat) : Bool := off % 4 == 0 && off < 0x40

/-- An access that R100 admits. The offset of an access by bus address is known only after routing. -/
def BusAccess.wellFormed (a : BusAccess) : Bool :=
  a.width == 32 &&
    match a.target with
    | .window _ off => admittedOffset off
    | .address _ => true

/-- A host event that has a meaning of its own: an admitted access, a store inside the 2^64 bytes of host memory, or
power-on. -/
def HostEvent.wellFormed : HostEvent → Bool
  | .access a => a.wellFormed
  | .memWrite addr bytes => addr.toNat + bytes.length ≤ 2 ^ 64
  | .powerOn _ _ => true

end Machine

end Sys2Proof
end

