-- ==== Sys2Proof/Certificates/Slice0/Obligations.lean ====
section
/-! DEFINITION. The statements for the provers. Each is about the machine and no program. An access of a statement is
written with the instance and offset of the window it goes to; BusAddressReachesWindow carries it to bus addresses. -/

namespace Sys2Proof.Claims

open Sys2Proof.Machine

/-- The active instance of `s` is `d`. -/
def ActiveIs (s : State) (d : Digest) : Prop := s.digests[s.active]? = some d

/-- `s` with `e` in the active place, and nothing else changed. -/
def withActive (s : State) (e : Digest) : State := { s with digests := s.digests.set s.active e }

/-- The state after serving an access to instance `i`, before its effect: the event is taken, `i` is active. -/
def serving (s : State) (i : Nat) (rest : List HostEvent) : State := { s with pending := rest, active := i }

/-- The next event of `s` is a 32-bit read at offset `off` of the window of instance `i`, which is `d` and not stuck. -/
def ReadsAt (s : State) (i off : Nat) (d : Digest) (rest : List HostEvent) : Prop :=
  s.pending = .access ⟨.window i off, 32, .read⟩ :: rest ∧ s.digests[i]? = some d ∧ d.stuck = false

/-- The next event of `s` is a 32-bit write of `w` at offset `off` of the window of instance `i`, which is `d` and not
stuck. -/
def WritesAt (s : State) (i off : Nat) (w : Word) (d : Digest) (rest : List HostEvent) : Prop :=
  s.pending = .access ⟨.window i off, 32, .write w⟩ :: rest ∧ s.digests[i]? = some d ∧ d.stuck = false

/-- The read was served and gave the host `x`; nothing else of the state changes. -/
def Gives (s : State) (i : Nat) (rest : List HostEvent) (x : Reply) : Prop :=
  step s = .next { serving s i rest with replies := s.replies ++ [x] }

/-- The read was served and the host got `w`; nothing else of the state changes. -/
def Replies (s : State) (i : Nat) (rest : List HostEvent) (w : Word) : Prop := Gives s i rest (.word w)

/-- The read was served and gave no value; nothing else of the state changes. -/
def GivesNoValue (s : State) (i : Nat) (rest : List HostEvent) : Prop :=
  ∃ x : Reply, (∀ w, x ≠ .word w) ∧ Gives s i rest x

/-- The write was served and instance `i` is `d` afterwards; nothing else changes. -/
def Stores (s : State) (i : Nat) (rest : List HostEvent) (d : Digest) : Prop :=
  step s = .next { serving s i rest with digests := s.digests.set i d }

/-- The write of `w` to CMD of instance `i`, which is `d`, has no step: the instance is stuck and the write does not
complete; nothing else changes. -/
def Waits (s : State) (i : Nat) (w : Word) (d : Digest) (rest : List HostEvent) : Prop :=
  step s = .next
    { serving s i rest with
      digests := s.digests.set i { d with stuck := true }
      held := s.held ++ [⟨.window i 0x00, 32, .write w⟩] }

/-- The step has the outcome `o` of issuing `w` to instance `i`, which is `d`; where that is a WRITE that has no step, the
instance is stuck. -/
def Issues (s : State) (i : Nat) (w : Word) (d : Digest) (rest : List HostEvent) (o : Host.Outcome State Fault Refusal) :
    Prop :=
  (o ≠ .fault .sourceNotAdmitted → step s = o) ∧ (o = .fault .sourceNotAdmitted → Waits s i w d rest)

/-- The next event is not a power-on. -/
def NotPowerOn (s : State) : Prop := ∀ caps permitted rest, s.pending ≠ .powerOn caps permitted :: rest

/-- Every source byte of WRITE lies in the host address space. -/
def SourceInSpace (d : Digest) : Prop := (srcAddr d).toNat + (srcLen d).toNat ≤ 2 ^ 64

/-- Host memory admits every source byte of WRITE. -/
def SourceAdmitted (m : Memory) (d : Digest) : Prop :=
  ∀ k, k < (srcLen d).toNat → (memRead m ((srcAddr d).toNat + k)).isSome = true

/-- The instance after the padding of FINALIZE, written as R124 writes it. -/
def padded (d : Digest) : Digest :=
  if d.len.toNat % 64 = 0 then d else digestWrite d (zeros (64 - d.len.toNat % 64))

/-- The checksum of FINALIZE: lane 0 of FinalizeTransform of the padded state and the length before padding. -/
def finalLane (d : Digest) : Lane := (finalizeTransform (padded d).state d.len)[0]

/-- Command `c` completes from `s`, and the next state is `s` with the active instance become `e`. -/
def Becomes (c : Instr) (s : State) (e : Digest) : Prop := exec c s = .next (withActive s e)

end Sys2Proof.Claims

open Sys2Proof Sys2Proof.Machine Sys2Proof.Claims

/-- A word is a command only when it equals the listed word exactly (30_encoding.md section 1). A word with OPCODE 0x01..0x04
and a reserved bit set is no command; that the decoder names it `reservedBitSet`, apart from an unknown OPCODE, is the model's
choice (log entry 25; the spec has one IllegalCommand). -/
def Obligations.DecodeMatchesWholeWord : Prop :=
  ∀ w : Word,
    (decode w = .ok .reset ↔ w = 0x00000001#32) ∧ (decode w = .ok .write ↔ w = 0x00000002#32) ∧
      (decode w = .ok .finalize ↔ w = 0x00000003#32) ∧ (decode w = .ok .finalizeKeep ↔ w = 0x00000004#32) ∧
      (w.extractLsb' 0 8 ∈ [0x01#8, 0x02#8, 0x03#8, 0x04#8] → w.extractLsb' 8 24 ≠ 0 →
        decode w = .error .reservedBitSet)

/-- The four words of the opcode map, written out as RSV = 0 and OPCODE, decode to their commands and encode back
(30_encoding.md section 1). -/
def Obligations.FourWordsDecode : Prop :=
  decode (0#24 ++ 0x01#8) = .ok .reset ∧ decode (0#24 ++ 0x02#8) = .ok .write ∧
    decode (0#24 ++ 0x03#8) = .ok .finalize ∧ decode (0#24 ++ 0x04#8) = .ok .finalizeKeep ∧
    ∀ i : Instr, decode (encode i) = .ok i

/-- A REGWRITE of `w` to CMD executes the command of `w`, or raises IllegalCommand, as one step of the instance
(40_digest_commands.md section 1). Only a WRITE can be without a step (60_exceptions.md section 1); that the machine then goes
on, with the instance marked stuck and the write held, is the model's choice (log entry 7). An instance already stuck is
StuckInstanceAlone's. -/
def Obligations.StepRunsCommandWrite : Prop :=
  ∀ s i w d rest, WritesAt s i 0x00 w d rest →
    (w = 0x00000001#32 → step s = exec .reset (serving s i rest)) ∧
      (w = 0x00000002#32 → Issues s i w d rest (exec .write (serving s i rest))) ∧
      (w = 0x00000003#32 → step s = exec .finalize (serving s i rest)) ∧
      (w = 0x00000004#32 → step s = exec .finalizeKeep (serving s i rest)) ∧
      (w ∉ [0x00000001#32, 0x00000002#32, 0x00000003#32, 0x00000004#32] →
        Stores s i rest { d with ill := true, faultLog := d.faultLog ++ [.illegalCommand w] })

/-- The step runs the decoded command: whatever word is written to CMD, if it decodes to `c` then the step is `exec c`
after the event is taken and the instance made active; where `exec c` is a WRITE that has no step, the instance is stuck and
the others go on (40_digest_commands.md section 1, 60_exceptions.md section 4; the queue and the way a stuck instance is kept
are the model's own, log entries 7 and 8). -/
def Obligations.StepIsExecOfDecoded : Prop :=
  (∀ s i w d rest c, WritesAt s i 0x00 w d rest → decode w = .ok c → c.wellFormed = true →
      Issues s i w d rest (exec c (serving s i rest))) ∧
    ∀ s d c, ActiveIs s d → d.stuck = false → exec c s ≠ .fault .sourceNotAdmitted →
      step (s.withFetchWord 32 (encode c).toNat) = exec c s

/-- The windows at INST_BASE do not overlap. With windows that do not, bus address INST_BASE(i) + off reaches offset `off` of
window `i`. An access by bus address is served as the access by window and offset; an address in no window is refused by name
(10_state.md section 4, 20_memory.md section 4; the refusal and the comparison without wrap are the model's choices, log
entries 9 and 27). -/
def Obligations.BusAddressReachesWindow : Prop :=
  (∀ j k, j < Config.numInstances → k < Config.numInstances → j ≠ k →
      (Config.instBase j).toNat + 64 ≤ (Config.instBase k).toNat ∨
        (Config.instBase k).toNat + 64 ≤ (Config.instBase j).toNat) ∧
    (∀ (base : Nat → DWord) (n i off : Nat), i < n → off < 64 → (base i).toNat + off < 2 ^ 64 →
      (∀ j k, j < n → k < n → j ≠ k →
        (base j).toNat + 64 ≤ (base k).toNat ∨ (base k).toNat + 64 ≤ (base j).toNat) →
      routeTarget base n (.address (base i + BitVec.ofNat 64 off)) = some (i, off)) ∧
    (∀ (base : Nat → DWord) n (a : DWord),
      (∀ i, i < n → a.toNat < (base i).toNat ∨ (base i).toNat + 64 ≤ a.toNat) →
      routeTarget base n (.address a) = none) ∧
    ∀ s a op, serveAccess ⟨.address a, 32, op⟩ s =
      match routeTarget Config.instBase Config.numInstances (.address a) with
      | some (i, off) => serveAccess ⟨.window i off, 32, op⟩ s
      | none => .refused .addressInNoWindow

/-- An access of another width, at an offset that is not a multiple of 4, or beyond offset 0x3F is refused
(40_digest_commands.md section 1). Which name an access has to which several apply, the width first, then the window, then the
alignment, is the model's choice (log entry 22). -/
def Obligations.OtherAccessesRefused : Prop :=
  (∀ s target width op, width ≠ 32 → serveAccess ⟨target, width, op⟩ s = .refused .accessWidth) ∧
    ∀ s i off op d, s.digests[i]? = some d →
      (0x3F < off → serveAccess ⟨.window i off, 32, op⟩ s = .refused .accessOutsideWindow) ∧
        (off ≤ 0x3F → off % 4 ≠ 0 → serveAccess ⟨.window i off, 32, op⟩ s = .refused .accessMisaligned)

/-- R101: what REGREAD returns at each offset of an instance that is not stuck (a stuck one accepts no access:
StuckInstanceAlone). A read raises nothing and changes no state; its word goes to the host. A read of RESULT`k` while RV = 0
is a fault in a model, which gives no value (what is recorded is UnwrittenResultRead's). -/
def Obligations.RegisterReads : Prop :=
  ∀ s i off d rest, ReadsAt s i off d rest →
    (off = 0x00 → Replies s i rest 0x00000000#32) ∧
      (off = 0x04 → Replies s i rest
        ((BitVec.ofBool d.range).setWidth 32 <<< 2 ||| (BitVec.ofBool d.ill).setWidth 32 <<< 1 |||
          (BitVec.ofBool d.rv).setWidth 32)) ∧
      (off = 0x08 → Replies s i rest ((srcAddr d).extractLsb' 0 32)) ∧
      (off = 0x0C → Replies s i rest ((srcAddr d).extractLsb' 32 32)) ∧
      (off = 0x10 → Replies s i rest ((srcLen d).extractLsb' 0 32)) ∧
      (off = 0x14 → Replies s i rest ((srcLen d).extractLsb' 32 32)) ∧
      (off = 0x18 → Replies s i rest (s.backend.setWidth 32)) ∧
      (off = 0x1C → Replies s i rest 0x00004010#32) ∧
      (∀ k : Fin 4, off = 0x20 + 4 * k.val → d.rv = true → Replies s i rest d.result[k]) ∧
      (∀ k : Fin 4, off = 0x20 + 4 * k.val → d.rv = false → GivesNoValue s i rest) ∧
      (∀ k : Fin 4, off = 0x30 + 4 * k.val → Replies s i rest 0x00000000#32)

/-- A read of RESULT`k` while RV = 0 is a fault in a model (10_state.md section 4), and a model records a fault and gives no
value (93_implementation_defined.md section 1); the read completes and the machine goes on. That the record stands in the list of
replies, in the place of the word, is the model's choice (log entry 21). -/
def Obligations.UnwrittenResultRead : Prop :=
  ∀ s i d rest (k : Fin 4), ReadsAt s i (0x20 + 4 * k.val) d rest → d.rv = false → Gives s i rest (.readFault k)

/-- What REGWRITE does at each offset of an instance that is not stuck: it issues a command, stores a half of SRC_ADDR or
SRC_LEN and keeps the other half, or has no effect (40_digest_commands.md section 1). A WRITE so issued that has no step leaves
the instance marked stuck and its write held; keeping it so is the model's choice (log entry 7). -/
def Obligations.RegisterWrites : Prop :=
  ∀ s i off w d rest, WritesAt s i off w d rest →
    (off = 0x00 → Issues s i w d rest (issueCommand w (serving s i rest))) ∧
      (off = 0x08 → Stores s i rest { d with srcAddrLo := w }) ∧
      (off = 0x0C → Stores s i rest { d with srcAddrHi := w }) ∧
      (off = 0x10 → Stores s i rest { d with srcLenLo := w }) ∧
      (off = 0x14 → Stores s i rest { d with srcLenHi := w }) ∧
      (off ∈ [0x04, 0x18, 0x1C, 0x20, 0x24, 0x28, 0x2C, 0x30, 0x34, 0x38, 0x3C] →
        step s = .next (serving s i rest))

/-- A write of `w` to CMD issues command `w`; CMD reads as 0 without side effect (10_state.md section 4). A WRITE so issued
that has no step leaves the instance marked stuck and its write held; keeping it so is the model's choice (log entry 7). -/
def Obligations.CommandRegister : Prop :=
  (∀ s i w d rest, WritesAt s i 0x00 w d rest → Issues s i w d rest (issueCommand w (serving s i rest))) ∧
    ∀ s i d rest, ReadsAt s i 0x00 d rest → Replies s i rest 0x00000000#32

/-- R32: SRC_ADDR and SRC_LEN are `HI << 32 | LO`; the halves read back as written; no command modifies them; only WRITE
reads them. -/
def Obligations.SourceRegisters : Prop :=
  (∀ d, (srcAddr d).toNat = d.srcAddrHi.toNat * 2 ^ 32 + d.srcAddrLo.toNat ∧
      (srcLen d).toNat = d.srcLenHi.toNat * 2 ^ 32 + d.srcLenLo.toNat) ∧
    (∀ b d w, readReg b (writeReg d .srcAddrLo w) .srcAddrLo = .word w ∧
      readReg b (writeReg d .srcAddrHi w) .srcAddrHi = .word w ∧
      readReg b (writeReg d .srcLenLo w) .srcLenLo = .word w ∧ readReg b (writeReg d .srcLenHi w) .srcLenHi = .word w) ∧
    (∀ c s t d e, exec c s = .next t → ActiveIs s d → ActiveIs t e →
      e.srcAddrLo = d.srcAddrLo ∧ e.srcAddrHi = d.srcAddrHi ∧ e.srcLenLo = d.srcLenLo ∧ e.srcLenHi = d.srcLenHi) ∧
    ∀ c s d e al ah ll lh, c ≠ .write → ActiveIs s d → Becomes c s e →
      Becomes c (withActive s { d with srcAddrLo := al, srcAddrHi := ah, srcLenLo := ll, srcLenHi := lh })
        { e with srcAddrLo := al, srcAddrHi := ah, srcLenLo := ll, srcLenHi := lh }

/-- R34: BACKEND_ID is BACKEND in bits 7:0 and zero above, identical in every window; a write is ignored. -/
def Obligations.BackendIdRegister : Prop :=
  (∀ s i d rest, ReadsAt s i 0x18 d rest → ∃ w : Word,
      w.extractLsb' 0 8 = s.backend ∧ w.extractLsb' 8 24 = 0 ∧ Replies s i rest w) ∧
    (∀ s t i j d e rest rest' w w', ReadsAt s i 0x18 d rest → ReadsAt t j 0x18 e rest' → s.backend = t.backend →
      Replies s i rest w → Replies t j rest' w' → w = w') ∧
    ∀ s i w d rest, WritesAt s i 0x18 w d rest → step s = .next (serving s i rest)

/-- R35: INFO is the constant 0x00004010: OUTPUT_SIZE 16 in bits 7:0, BLOCK_SIZE 64 in bits 15:8, zero above; a write is
ignored. -/
def Obligations.InfoRegister : Prop :=
  (∀ s i d rest, ReadsAt s i 0x1C d rest → Replies s i rest 0x00004010#32) ∧
    ((0x00004010#32).extractLsb' 0 8).toNat = 16 ∧ ((0x00004010#32).extractLsb' 8 8).toNat = 64 ∧
    ((0x00004010#32).extractLsb' 16 16).toNat = 0 ∧
    ∀ s i w d rest, WritesAt s i 0x1C w d rest → step s = .next (serving s i rest)

/-- R37: the reserved offsets read 0 and ignore writes. -/
def Obligations.ReservedRegisters : Prop :=
  ∀ off, off ∈ [0x30, 0x34, 0x38, 0x3C] →
    (∀ s i d rest, ReadsAt s i off d rest → Replies s i rest 0x00000000#32) ∧
      ∀ s i w d rest, WritesAt s i off w d rest → step s = .next (serving s i rest)

/-- STATUS reads RV in bit 0, ILL in bit 1, RANGE in bit 2 and zero in bits 31:3; a write to it is ignored; RV stays set
until power-on (10_state.md section 4). -/
def Obligations.StatusBits : Prop :=
  (∀ d b, ∃ w : Word, readReg b d .status = .word w ∧ w.getLsbD 0 = d.rv ∧ w.getLsbD 1 = d.ill ∧
      w.getLsbD 2 = d.range ∧ ∀ k, 3 ≤ k → w.getLsbD k = false) ∧
    (∀ s i w d rest, WritesAt s i 0x04 w d rest → step s = .next (serving s i rest)) ∧
    ∀ (s t : State) (i : Nat) (d e : Digest), step s = .next t → NotPowerOn s → s.digests[i]? = some d → t.digests[i]? = some e →
      d.rv = true → e.rv = true

/-- R36 and R127: FINALIZE and FINALIZE.KEEP put checksum byte `4 k + j` into bits `8 j + 7 .. 8 j` of RESULT`k` and set RV;
any other word written to CMD, and a host write, leave RESULT and RV alone; RV = 0 after power-on; a read gives RESULT`k` while
RV = 1, and is a fault that gives no value while RV = 0 (what is recorded is UnwrittenResultRead's). -/
def Obligations.ResultRegisters : Prop :=
  (∀ c s d, c = .finalize ∨ c = .finalizeKeep → ActiveIs s d → ∃ e, Becomes c s e ∧ e.rv = true ∧
      ∀ k : Fin 4, e.result[k] =
        ((finalLane d)[4 * k.val].setWidth 32 ||| (finalLane d)[4 * k.val + 1].setWidth 32 <<< 8 |||
          (finalLane d)[4 * k.val + 2].setWidth 32 <<< 16 ||| (finalLane d)[4 * k.val + 3].setWidth 32 <<< 24)) ∧
    (∀ w s t d e, w ≠ 0x00000003#32 → w ≠ 0x00000004#32 → issueCommand w s = .next t → ActiveIs s d → ActiveIs t e →
      e.result = d.result ∧ e.rv = d.rv) ∧
    (∀ d, d ∈ State.reset.digests → d.rv = false) ∧
    (∀ s i w d rest (k : Fin 4), WritesAt s i (0x20 + 4 * k.val) w d rest → step s = .next (serving s i rest)) ∧
    ∀ s i d rest (k : Fin 4), ReadsAt s i (0x20 + 4 * k.val) d rest →
      (d.rv = true → Replies s i rest d.result[k]) ∧ (d.rv = false → GivesNoValue s i rest)

/-- R120: RESET. -/
def Obligations.ResetEffect : Prop :=
  decode 0x00000001#32 = .ok .reset ∧
    ∀ s d, ActiveIs s d → Becomes .reset s
      { d with
        state := #v[Config.initLane, Config.initLane, Config.initLane, Config.initLane]
        buf := Vector.replicate 64 0
        len := 0
        nbuf := 0
        ill := false
        range := false }

/-- RESET, one WRITE and FINALIZE on instances with different histories give the same checksum, if the sources hold the same
bytes (40_digest_commands.md section 3). -/
def Obligations.ResetErasesHistory : Prop :=
  ∀ s s1 s2 s3 t t1 t2 t3 d e d3 e3, ActiveIs s d → ActiveIs t e → srcAddr e = srcAddr d → srcLen e = srcLen d →
    (∀ k, k < (srcLen d).toNat → memRead t.mem ((srcAddr d).toNat + k) = memRead s.mem ((srcAddr d).toNat + k)) →
    exec .reset s = .next s1 → exec .write s1 = .next s2 → exec .finalize s2 = .next s3 →
    exec .reset t = .next t1 → exec .write t1 = .next t2 → exec .finalize t2 = .next t3 →
    ActiveIs s3 d3 → ActiveIs t3 e3 → e3.result = d3.result

/-- R113: a WRITE whose source lies in the address space and is admitted completes. It consumes exactly SRC_LEN bytes, those
of the source range in ascending order, hands them to DigestWrite, and LEN grows by SRC_LEN. -/
def Obligations.WriteCompletes : Prop :=
  ∀ s d, ActiveIs s d → SourceInSpace d → SourceAdmitted s.mem d →
    ∃ p : List Byte, p.length = (srcLen d).toNat ∧
      (∀ k, k < (srcLen d).toNat → p[k]? = memRead s.mem ((srcAddr d).toNat + k)) ∧
      Becomes .write s (digestWrite d p) ∧ (digestWrite d p).len = d.len + srcLen d

/-- R202: a WRITE with SRC_LEN > 0 and SRC_ADDR + SRC_LEN > 2^64 sets RANGE, appends SourceRange to the fault log, and changes
nothing else, whatever host memory holds. -/
def Obligations.WriteRaisesSourceRange : Prop :=
  ∀ s d, ActiveIs s d → 0 < (srcLen d).toNat → 2 ^ 64 < (srcAddr d).toNat + (srcLen d).toNat →
    Becomes .write s
      { d with range := true, faultLog := d.faultLog ++ [.sourceRange (srcAddr d) (srcLen d)] }

/-- R203: a WRITE in range with a source byte that host memory refuses has no step. What becomes of its instance is
StuckInstanceAlone. -/
def Obligations.WriteStuck : Prop :=
  ∀ s d k, ActiveIs s d → SourceInSpace d → k < (srcLen d).toNat →
    memRead s.mem ((srcAddr d).toNat + k) = none → exec .write s = .fault .sourceNotAdmitted

/-- A WRITE of no bytes leaves the whole state as it is, whatever SRC_ADDR and host memory hold (40_digest_commands.md
section 2). -/
def Obligations.WriteOfNothing : Prop :=
  ∀ s d, ActiveIs s d → srcLen d = 0 → exec .write s = .next s

/-- R52: a WRITE depends on the bytes of its source range alone, not on where they lie: the same bytes at another address, in
another memory, leave the same instance but for the address registers. -/
def Obligations.WriteReadsOnlyItsSource : Prop :=
  ∀ s s' d d' e, ActiveIs s d → ActiveIs s' d' →
    { d' with srcAddrLo := d.srcAddrLo, srcAddrHi := d.srcAddrHi } = d → SourceInSpace d → SourceInSpace d' →
    (∀ k, k < (srcLen d).toNat →
      memRead s'.mem ((srcAddr d').toNat + k) = memRead s.mem ((srcAddr d).toNat + k)) →
    Becomes .write s e →
    Becomes .write s' { e with srcAddrLo := d'.srcAddrLo, srcAddrHi := d'.srcAddrHi }

/-- Writing `x` and then `y` leaves the same stream as writing `x ++ y` at once (40_digest_commands.md section 2). -/
def Obligations.DigestWriteChunking : Prop :=
  ∀ d x y, SameStream (digestWrite (digestWrite d x) y) (digestWrite d (x ++ y))

/-- DigestWrite of any bytes on any instance: the valid bytes and the input are cut at the last whole block; Block runs on the
whole blocks, the rest is staged, LEN grows by the input, and the interface registers are kept. Where no block is completed,
the input stands behind the valid bytes (40_digest_commands.md section 2). Nothing is said of the stale bytes (log entry
14). -/
def Obligations.DigestWriteStages : Prop :=
  ∀ d p, let m := liveBytes d ++ p; let whole := 64 * ((d.nbuf.val + p.length) / 64)
    block d.state (m.take whole) = some (digestWrite d p).state ∧
      (digestWrite d p).len = d.len + BitVec.ofNat 64 p.length ∧
      (digestWrite d p).nbuf.val = (d.nbuf.val + p.length) % 64 ∧ liveBytes (digestWrite d p) = m.drop whole ∧
      SameInterface d (digestWrite d p) ∧
      (d.nbuf.val + p.length < 64 →
        (digestWrite d p).state = d.state ∧
          ∀ j (h : j < d.nbuf.val + p.length) (h64 : j < 64), (digestWrite d p).buf[j] =
            if j < d.nbuf.val then d.buf[j] else p[j - d.nbuf.val]?.getD 0)

/-- FINALIZE completes from every state: zero padding up to a block boundary of LEN, FinalizeTransform with the length before
padding, lane 0 into RESULT, RV set, STATE not overwritten by the transform. Where NBUF = LEN mod 64, the padding runs one
Block on the valid bytes and the zeros and leaves LEN rounded up, NBUF = 0 and zeros in the rest of BUF (40_digest_commands.md
section 4). -/
def Obligations.FinalizeEffect : Prop :=
  (∀ s d, ActiveIs s d →
      Becomes .finalize s { padded d with result := resultWords (finalLane d), rv := true }) ∧
    ∀ d, d.CountsAgree → d.len.toNat % 64 ≠ 0 →
      (padded d).state = absorb d.state (liveBytes d ++ zeros (64 - d.len.toNat % 64)) ∧
        (padded d).len = d.len + BitVec.ofNat 64 (64 - d.len.toNat % 64) ∧ (padded d).nbuf = 0 ∧
        ∀ j (h : j < 64), d.len.toNat % 64 ≤ j → (padded d).buf[j] = 0

/-- FIN_WRITEBACK is false; under either value the RESULT of a FINALIZE is the same, and only under true does STATE become the
transformed state (40_digest_commands.md section 4). -/
def Obligations.FinalizeWriteback : Prop :=
  Config.finWriteback = false ∧
    ∀ d, (finalizeDigest false d).state = (padded d).state ∧
      (finalizeDigest true d).state = finalizeTransform (padded d).state d.len ∧
      (finalizeDigest true d).result = (finalizeDigest false d).result ∧
      (finalizeDigest false d).result = resultWords (finalLane d)

/-- A second FINALIZE pads nothing and mixes in the padded length; it repeats the first result when the first length was a
multiple of 64 (40_digest_commands.md section 4). That STATE is kept and that the result can repeat rest on FIN_WRITEBACK =
false, which 40_digest_commands.md section 4 fixes (R126, D14) and the source does not: log entry 4, a choice of the spec's
that I6 asks claims about a second FINALIZE to name. The statement is about the machine with that value. -/
def Obligations.SecondFinalize : Prop :=
  ∀ s t d e, ActiveIs s d → d.CountsAgree → exec .finalize s = .next t → ActiveIs t e →
    e.len.toNat = 64 * ((d.len.toNat + 63) / 64) % 2 ^ 64 ∧ e.nbuf = 0 ∧
      Becomes .finalize t { e with result := resultWords (finalizeTransform e.state e.len)[0] } ∧
      (d.len.toNat % 64 = 0 → exec .finalize t = .next t)

/-- R129: FINALIZE after RESET with nothing written is legal, runs no Block, and delivers the hash of the empty string. -/
def Obligations.EmptyInput : Prop :=
  ∀ s t d, ActiveIs s d → exec .reset s = .next t → ∃ e, ActiveIs t e ∧
    Becomes .finalize t
      { e with
        result := resultWords
          (finalizeTransform #v[Config.initLane, Config.initLane, Config.initLane, Config.initLane] 0)[0]
        rv := true }

/-- R130: FINALIZE.KEEP completes from every state; it delivers the checksum FINALIZE would, and leaves STATE, BUF, LEN and
NBUF alone; repeating it changes nothing. -/
def Obligations.FinalizeKeepEffect : Prop :=
  decode 0x00000004#32 = .ok .finalizeKeep ∧
    (∀ s d, ActiveIs s d → Becomes .finalizeKeep s { d with result := resultWords (finalLane d), rv := true }) ∧
    ∀ s t, exec .finalizeKeep s = .next t → exec .finalizeKeep t = .next t

/-- FINALIZE.KEEP gives the checksum of a FINALIZE from the same state, under both values of FIN_WRITEBACK
(40_digest_commands.md section 5). -/
def Obligations.FinalizeKeepSameChecksum : Prop :=
  (∀ s t u e f, exec .finalize s = .next t → exec .finalizeKeep s = .next u → ActiveIs t e → ActiveIs u f →
      e.result = f.result) ∧
    ∀ d writeback, (finalizeDigest writeback d).result = (finalizeKeepDigest d).result

/-- The checksum is a function of the stream since the last RESET or power-on: both leave the empty stream, and from an
instance with the empty stream, however the stream is cut into writes, FINALIZE and FINALIZE.KEEP deliver Hash of the
concatenation (40_digest_commands.md section 6). -/
def Obligations.ChecksumOfStream : Prop :=
  (∀ (s t : State) (e : Digest), exec .reset s = .next t → ActiveIs t e → SameStream e Digest.powerOn) ∧
    (∀ (s t : State) caps permitted rest (i : Nat) (e : Digest), s.pending = .powerOn caps permitted :: rest →
      step s = .next t → t.digests[i]? = some e → SameStream e Digest.powerOn) ∧
    (∀ e, e ∈ State.reset.digests → SameStream e Digest.powerOn) ∧
    ∀ (s : State) (e : Digest) (writes : List (List Byte)), ActiveIs s e → SameStream e Digest.powerOn →
      ∀ u, u = withActive s (writes.foldl digestWrite e) →
        ∃ f g : Digest, Becomes .finalize u f ∧ Becomes .finalizeKeep u g ∧
          f.result = resultWords (hashOf writes.flatten) ∧ g.result = resultWords (hashOf writes.flatten)

/-- R142: the S-box table is the affine image of the multiplicative inverse in GF(2^8), 0 mapped to 0; S(0x53) = 0xed. -/
def Obligations.SboxIsAlgebraic : Prop :=
  (∀ a : Byte, ∃ b : Byte, (a = 0 → b = 0) ∧ (a ≠ 0 → gfMul a b = 1) ∧
      sbox a = b ^^^ b.rotateLeft 1 ^^^ b.rotateLeft 2 ^^^ b.rotateLeft 3 ^^^ b.rotateLeft 4 ^^^ 0x63#8) ∧
    sbox 0x53#8 = 0xed#8

/-- The table form of the round computes the round (41_transform.md section 1). -/
def Obligations.TableFormIsRound : Prop := ∀ k d, aesRoundTable k d = aesRound k d

/-- The keyless round is a bijection on lanes (41_transform.md section 1). -/
def Obligations.KeylessRoundBijective : Prop := Function.Bijective keylessRound

/-- On a lane of equal bytes `v` the keyless round gives equal bytes S(v) (41_transform.md section 1). -/
def Obligations.RoundOfUniformLane : Prop :=
  ∀ v : Byte, keylessRound (Vector.replicate 16 v) = Vector.replicate 16 (sbox v)

/-- Block reads its data in 64-byte chunks, left to right; each chunk's lane `i` keys one round on lane `i` of the state. It is
refused on a length that is not a multiple of 64 (41_transform.md section 2). -/
def Obligations.BlockByChunks : Prop :=
  (∀ S, block S [] = some S) ∧
    (∀ S chunk rest, chunk.length = 64 → rest.length % 64 = 0 →
      block S (chunk ++ rest) =
        block (Vector.ofFn fun i => aesRound (Vector.ofFn fun j => chunk.getD (16 * i.val + j.val) 0) S[i]) rest) ∧
    (∀ S D, D.length % 64 ≠ 0 → block S D = none) ∧
    block (Vector.replicate 4 (Vector.replicate 16 0)) (zeros 64) = some (Vector.replicate 4 (Vector.replicate 16 0x63))

/-- Block of two pieces in turn is Block of their concatenation (41_transform.md section 2). -/
def Obligations.BlockComposes : Prop :=
  ∀ S A B, A.length % 64 = 0 → B.length % 64 = 0 → (block S A).bind (fun T => block T B) = block S (A ++ B)

/-- R155: the length is XORed in little-endian, into bytes 0..7 of each lane; the other bytes are kept. -/
def Obligations.LengthInjection : Prop :=
  ∀ S L i (hi : i < 4) j (hj : j < 16), (injectLength S L)[i][j] =
    if j < 8 then S[i][j] ^^^ L.extractLsb' (8 * j) 8 else S[i][j]

/-- R156: the mixing schedule, step by step; lane 2 is never written. FinalizeTransform(00^64, 0) = de^16 ++ 00^48. -/
def Obligations.MixingSchedule : Prop :=
  (∀ S L, ∃ lane1a lane3 lane1b lane0a lane0b lane0c,
      let a := injectLength S L
      lane1a = aesRound a[1] a[0] ∧ lane3 = aesRound lane1a a[2] ∧ lane1b = aesRound lane1a a[0] ∧
        lane0a = aesRound a[0] a[0] ∧ lane0b = aesRound lane0a lane0a ∧ lane0c = aesRound lane0b lane0b ∧
        finalizeTransform S L = #v[lane0c, lane1b, a[2], lane3]) ∧
    finalizeTransform (Vector.replicate 4 (Vector.replicate 16 0)) 0 =
      #v[Vector.replicate 16 0xde, Vector.replicate 16 0, Vector.replicate 16 0, Vector.replicate 16 0]

/-- The closed form: steps 1 and 3 of the schedule cancel on lane 1 (41_transform.md section 3). -/
def Obligations.FinalizeClosedForm : Prop :=
  ∀ S L, let a := injectLength S L
    finalizeTransform S L =
      #v[selfRound (selfRound (selfRound a[0])), a[1], a[2],
        xorLane (xorLane (keylessRound a[2]) (keylessRound a[0])) a[1]]

/-- The checksum depends only on the length and on bytes 0..15 of each 64-byte chunk: bytes 16..63 never reach it
(41_transform.md section 3; 90_conflicts.md C6: the schedule is not to be repaired). -/
def Obligations.ChecksumIgnoresOtherLanes : Prop :=
  ∀ m m' : List Byte, m.length = m'.length → (∀ k, k % 64 < 16 → m[k]? = m'[k]?) → hashOf m = hashOf m'

/-- R181: SELECT takes the first entry in list order whose capability is present, if acceleration is permitted; else 0. It has
run when the machine is reset. -/
def Obligations.SelectFirstMatch : Prop :=
  State.reset.backend = selectBackend Config.caps Config.accelBackends Config.accelPermitted ∧
  ∀ (caps : List Capability) (accel : List AccelBackend),
    selectBackend caps accel false = 0 ∧
      (∀ permitted, (∀ e, e ∈ accel → e.cap ∉ caps) → selectBackend caps accel permitted = 0) ∧
      ∀ before e after, accel = before ++ e :: after → (∀ x, x ∈ before → x.cap ∉ caps) → e.cap ∈ caps →
        selectBackend caps accel true = e.id

/-- R183: no command and no register write changes BACKEND; SELECT alone writes it, at power-on. -/
def Obligations.BackendImmutable : Prop :=
  State.reset.backend = selectBackend Config.caps Config.accelBackends Config.accelPermitted ∧
    (∀ s t, step s = .next t → NotPowerOn s → t.backend = s.backend) ∧
    ∀ s t caps permitted rest, s.pending = .powerOn caps permitted :: rest → step s = .next t →
      t.backend = selectBackend caps Config.accelBackends permitted

/-- R184: no result depends on BACKEND: with another identifier every command does the same, and only BACKEND_ID reads it. -/
def Obligations.BackendIndependence : Prop :=
  (∀ c s t b, exec c s = .next t → exec c { s with backend := b } = .next { t with backend := b }) ∧
    (∀ w s t b, issueCommand w s = .next t → issueCommand w { s with backend := b } = .next { t with backend := b }) ∧
    ∀ d r b b', r ≠ .backendId → readReg b d r = readReg b' d r

/-- R201: any word but the four sets ILL and appends IllegalCommand to the fault log; nothing else changes. -/
def Obligations.IllegalWord : Prop :=
  ∀ s d (w : Word), ActiveIs s d → w ≠ 0x00000001#32 → w ≠ 0x00000002#32 → w ≠ 0x00000003#32 → w ≠ 0x00000004#32 →
    issueCommand w s =
      .next (withActive s { d with ill := true, faultLog := d.faultLog ++ [.illegalCommand w] })

/-- DigestWrite, RESET, FINALIZE and FINALIZE.KEEP raise no exception: they complete, record nothing and set neither ILL nor
RANGE (60_exceptions.md section 1). -/
def Obligations.CoreRaisesNothing : Prop :=
  (∀ d p, (digestWrite d p).faultLog = d.faultLog ∧ (digestWrite d p).ill = d.ill ∧ (digestWrite d p).range = d.range) ∧
    ∀ c s d, c ≠ .write → ActiveIs s d → ∃ e, Becomes c s e ∧ e.faultLog = d.faultLog ∧
      (e.ill = true → d.ill = true) ∧ (e.range = true → d.range = true)

/-- ILL and RANGE stay set until power-on or a RESET command of this instance, a write of 0x00000001 to offset 0x00 of its
window, clears them (60_exceptions.md section 2). -/
def Obligations.StickyUntilReset : Prop :=
  ∀ (s t : State) (i : Nat) (d e : Digest), step s = .next t → NotPowerOn s → s.digests[i]? = some d → t.digests[i]? = some e →
    (∀ a rest, s.pending = .access a :: rest →
      ¬(routeTarget Config.instBase Config.numInstances a.target = some (i, 0x00) ∧ a.op = .write 0x00000001#32)) →
    (d.ill = true → e.ill = true) ∧ (d.range = true → e.range = true)

/-- The fault log only grows, by at most one record a step; not even power-on removes one (10_state.md section 5; that it
outlives a power-on event is log entry 12). -/
def Obligations.FaultLogOnlyGrows : Prop :=
  ∀ (s t : State) (i : Nat) (d : Digest), step s = .next t → s.digests[i]? = some d →
    ∃ (e : Digest) (new : List FaultRecord), t.digests[i]? = some e ∧ e.faultLog = d.faultLog ++ new ∧ new.length ≤ 1

/-- The frame of the four commands: what each leaves unchanged when it answers a next state. Every byte of host memory, the
other instances, BACKEND and the queue are kept by all; no command writes the SRC registers (40_digest_commands.md sections 2
to 5). -/
def Obligations.CommandFrame : Prop :=
  ∀ c s t d e, exec c s = .next t → ActiveIs s d → ActiveIs t e →
    SameOutside s t ∧ e.srcAddrLo = d.srcAddrLo ∧ e.srcAddrHi = d.srcAddrHi ∧ e.srcLenLo = d.srcLenLo ∧
      e.srcLenHi = d.srcLenHi ∧
      (c = .reset → e.rv = d.rv ∧ e.result = d.result ∧ e.faultLog = d.faultLog) ∧
      (c = .write → e.rv = d.rv ∧ e.ill = d.ill ∧ e.result = d.result ∧
        (SourceInSpace d → e.range = d.range ∧ e.faultLog = d.faultLog)) ∧
      (c = .finalize → e.ill = d.ill ∧ e.range = d.range ∧ e.faultLog = d.faultLog) ∧
      (c = .finalizeKeep → e.state = d.state ∧ e.buf = d.buf ∧ e.len = d.len ∧ e.nbuf = d.nbuf ∧ e.ill = d.ill ∧
        e.range = d.range ∧ e.faultLog = d.faultLog)

/-- R28: no command of one instance reads or writes another instance's state. -/
def Obligations.InstancesIsolated : Prop :=
  (∀ c s t, exec c s = .next t → ∀ j, j ≠ s.active → t.digests[j]? = s.digests[j]?) ∧
    ∀ c s s' d e, ActiveIs s d → ActiveIs s' d → s'.mem = s.mem → Becomes c s e → Becomes c s' e

/-- Commands to different instances are independent: either order leaves the same machine (20_memory.md section 5). -/
def Obligations.InstancesCommute : Prop :=
  ∀ (c c' : Instr) (s s1 s2 : State) (i j : Nat), i ≠ j → exec c { s with active := i } = .next s1 → exec c' { s1 with active := j } = .next s2 →
    ∃ t1 t2 : State, exec c' { s with active := j } = .next t1 ∧ exec c { t1 with active := i } = .next t2 ∧
      { t2 with active := j } = s2

/-- R214: with no event pending nothing changes, and an instance to which no access goes keeps all its state. -/
def Obligations.IdleKeepsState : Prop :=
  (∀ s, s.pending = [] → step s = .next s) ∧
    ∀ (s t : State) a rest (i j off : Nat), s.pending = .access a :: rest → step s = .next t →
      routeTarget Config.instBase Config.numInstances a.target = some (j, off) → i ≠ j → t.digests[i]? = s.digests[i]?

/-- R231: the power-on state of every instance. RESULT is unspecified: a read of it is a fault that gives no value. -/
def Obligations.PowerOnValues : Prop :=
  State.reset.digests.length = Config.numInstances ∧ 1 ≤ Config.numInstances ∧
    State.reset.backend = selectBackend Config.caps Config.accelBackends Config.accelPermitted ∧
    ∀ d, d ∈ State.reset.digests →
      d.state = #v[Config.initLane, Config.initLane, Config.initLane, Config.initLane] ∧
        d.buf = Vector.replicate 64 0 ∧ d.len = 0 ∧ d.nbuf = 0 ∧ srcAddr d = 0 ∧ srcLen d = 0 ∧ d.faultLog = [] ∧
        d.stuck = false ∧
        ∀ b, readReg b d .status = .word 0 ∧ readReg b d .info = .word 0x00004010#32 ∧
          ∀ (k : Fin 4) (w : Word), readReg b d (.result k) ≠ .word w

/-- A power-on event runs SELECT on the flags presented and puts every instance into its power-on state, but for the fault
log, which nothing clears (70_reset_and_hazards.md section 1; 10_state.md section 5). The model's choices: RESULT, which the
rule leaves unspecified, is 0 (log entry 5), the log outlives it (log entry 12), and host memory, the queue, the replies and
the accesses held are kept (log entry 13). -/
def Obligations.PowerOnEvent : Prop :=
  ∀ (s : State) caps permitted rest, s.pending = .powerOn caps permitted :: rest → ∃ t : State, step s = .next t ∧
    t.backend = selectBackend caps Config.accelBackends permitted ∧ t.digests.length = s.digests.length ∧
    (∀ (i : Nat) (d : Digest), s.digests[i]? = some d → t.digests[i]? = some { Digest.powerOn with faultLog := d.faultLog }) ∧
    t.mem = s.mem ∧ t.pending = rest ∧ t.replies = s.replies ∧ t.held = s.held

/-- The invariant holds right after power-on. -/
def Obligations.InvariantAtReset : Prop := State.reset.Inv

/-- Every step keeps the invariant: NBUF = LEN mod 64 (10_state.md section 2), a set sticky bit has a justified record in the
fault log, host memory stays canonical, and the active index names an instance (the last two are the model's own, log entries
6 and 10). No step adds or removes an instance. -/
def Obligations.InvariantKept : Prop :=
  ∀ s t, s.Inv → step s = .next t → t.Inv ∧ t.digests.length = s.digests.length

/-- A host store inside host memory puts byte `k` at `addr + k` and changes no other byte and no instance (00_scope.md section
5). The states range over those in which the stored bytes lie in the source range of a stuck WRITE; that the store is served
there at all is the model's choice (log entry 28, unsafe), since R243 may forbid such a run. -/
def Obligations.HostStore : Prop :=
  ∀ (s : State) addr bytes rest, s.pending = .memWrite addr bytes :: rest → addr.toNat + bytes.length ≤ 2 ^ 64 →
    ∃ t : State, step s = .next t ∧ (∀ k, k < bytes.length → memRead t.mem (addr.toNat + k) = bytes[k]?) ∧
      (∀ a, a < addr.toNat ∨ addr.toNat + bytes.length ≤ a → memRead t.mem a = memRead s.mem a) ∧
      t.digests = s.digests ∧ t.backend = s.backend ∧ t.pending = rest ∧ t.active = s.active ∧ t.replies = s.replies ∧ t.held = s.held

/-- R203 and R212: a WRITE whose source memory refuses a byte leaves its instance stuck, with no partial effect and no status
bit, and nothing else of the machine changed; a stuck instance accepts no further register access, which waits and changes
nothing; the machine goes on in both cases (60_exceptions.md sections 1 and 4; that the accesses are kept in a list is the
model's own, log entry 7). -/
def Obligations.StuckInstanceAlone : Prop :=
  (∀ s i d rest k, WritesAt s i 0x00 0x00000002#32 d rest → SourceInSpace d → k < (srcLen d).toNat →
      memRead s.mem ((srcAddr d).toNat + k) = none → Waits s i 0x00000002#32 d rest) ∧
    ∀ (s : State) (i off : Nat) op d rest, s.pending = .access ⟨.window i off, 32, op⟩ :: rest → s.digests[i]? = some d →
      d.stuck = true → off ≤ 0x3F → off % 4 = 0 →
      step s = .next { s with pending := rest, held := s.held ++ [⟨.window i off, 32, op⟩] }

/-- Instances run independently: whatever another instance is replaced by, stuck or not, a step that serves an access to
instance `j` does the same to everything else (60_exceptions.md section 4). -/
def Obligations.InstancesIndependent : Prop :=
  ∀ (s t : State) (i j off : Nat) op rest (x : Digest), i ≠ j → s.pending = .access ⟨.window j off, 32, op⟩ :: rest →
    step s = .next t →
    step { s with digests := s.digests.set i x } = .next { t with digests := t.digests.set i x }
end

