-- ==== Sys2Proof/Laws/Bytes.lean ====
section
/-! SUPPORT. What the byte helpers answer, element by element (Machine/Bytes.lean, Machine/Aes.lean). -/

namespace Sys2Proof.Machine

@[simp] theorem zeros_length (n : Nat) : (zeros n).length = n := by simp [zeros]

@[simp] theorem zeros_zero : zeros 0 = [] := rfl

@[simp] theorem le64_length (v : DWord) : (le64 v).length = 8 := by simp [le64]

@[simp] theorem laneOfList_getElem (l : List Byte) (j : Nat) (h : j < 16) : (laneOfList l)[j] = l.getD j 0 := by
  simp [laneOfList]

@[simp] theorem chunkOfList_getElem (l : List Byte) (j : Nat) (h : j < 64) : (chunkOfList l)[j] = l.getD j 0 := by
  simp [chunkOfList]

@[simp] theorem chunkLane_getElem (x : Chunk) (i : Fin 4) (j : Nat) (h : j < 16) :
    (chunkLane x i)[j] = x[16 * i.val + j] := by
  simp [chunkLane]

@[simp] theorem xorLane_getElem (a b : Lane) (j : Nat) (h : j < 16) : (xorLane a b)[j] = a[j] ^^^ b[j] := by
  simp [xorLane]

@[simp] theorem overlay_getElem (x : Chunk) (off : Nat) (p : List Byte) (j : Nat) (h : j < 64) :
    (overlay x off p)[j] = if off ≤ j ∧ j < off + p.length then p.getD (j - off) 0 else x[j] := by
  simp [overlay]

@[simp] theorem overlay_nil (x : Chunk) (off : Nat) : overlay x off [] = x := by
  ext j h
  have : ¬(off ≤ j ∧ j < off) := by omega
  simp [this]

@[simp] theorem subBytes_getElem (x : Lane) (j : Nat) (h : j < 16) : (subBytes x)[j] = sbox x[j] := by
  simp [subBytes]

theorem xorLane_self (a : Lane) : xorLane a a = Vector.replicate 16 0 := by
  ext j h
  simp

theorem xorLane_comm (a b : Lane) : xorLane a b = xorLane b a := by
  ext j h
  simp [BitVec.xor_comm]

theorem xorLane_assoc (a b c : Lane) : xorLane (xorLane a b) c = xorLane a (xorLane b c) := by
  ext j h
  simp [BitVec.xor_assoc]

theorem xorLane_zero (a : Lane) : xorLane a (Vector.replicate 16 0) = a := by
  ext j h
  simp

/-- Bytes staged at the end of the valid part of BUF follow the bytes that were valid before. -/
theorem take_overlay (x : Chunk) (off : Nat) (p : List Byte) (h : off + p.length ≤ 64) :
    (overlay x off p).toList.take (off + p.length) = x.toList.take off ++ p := by
  apply List.ext_getElem
  · simp; omega
  · intro j h1 h2
    simp only [List.length_take, Vector.length_toList] at h1
    rw [List.getElem_take, Vector.getElem_toList, overlay_getElem _ _ _ _ (by omega)]
    by_cases hj : j < off
    · rw [if_neg (by omega), List.getElem_append_left (by simp; omega)]
      simp
    · rw [if_pos (by omega), List.getElem_append_right (by simp; omega),
        ← List.getElem_eq_getD (h := by omega)]
      congr 1
      simp
      omega

end Sys2Proof.Machine
end

