-- ==== Sys2Proof/Laws/State.lean ====
section
/-! SUPPORT. One lemma per field per update of a state or of an instance, and one per register a read can name, so that no proof unfolds a record update. -/

namespace Sys2Proof.Machine

section StateUpdates

variable (s : State) (d : Digest)

@[simp] theorem setActive_digests : (s.setActive d).digests = s.digests.set s.active d := rfl
@[simp] theorem setActive_backend : (s.setActive d).backend = s.backend := rfl
@[simp] theorem setActive_mem : (s.setActive d).mem = s.mem := rfl
@[simp] theorem setActive_pending : (s.setActive d).pending = s.pending := rfl
@[simp] theorem setActive_active : (s.setActive d).active = s.active := rfl
@[simp] theorem setActive_replies : (s.setActive d).replies = s.replies := rfl
@[simp] theorem setActive_held : (s.setActive d).held = s.held := rfl

variable (i off : Nat) (op : BusOp)

@[simp] theorem hold_digests : (s.hold i off op).digests = s.digests := rfl
@[simp] theorem hold_backend : (s.hold i off op).backend = s.backend := rfl
@[simp] theorem hold_mem : (s.hold i off op).mem = s.mem := rfl
@[simp] theorem hold_pending : (s.hold i off op).pending = s.pending := rfl
@[simp] theorem hold_active : (s.hold i off op).active = s.active := rfl
@[simp] theorem hold_replies : (s.hold i off op).replies = s.replies := rfl
@[simp] theorem hold_held : (s.hold i off op).held = s.held ++ [⟨.window i off, 32, op⟩] := rfl

@[simp] theorem becomeStuck_digests :
    (s.becomeStuck d off op).digests = s.digests.set s.active { d with stuck := true } := rfl
@[simp] theorem becomeStuck_backend : (s.becomeStuck d off op).backend = s.backend := rfl
@[simp] theorem becomeStuck_mem : (s.becomeStuck d off op).mem = s.mem := rfl
@[simp] theorem becomeStuck_pending : (s.becomeStuck d off op).pending = s.pending := rfl
@[simp] theorem becomeStuck_active : (s.becomeStuck d off op).active = s.active := rfl
@[simp] theorem becomeStuck_replies : (s.becomeStuck d off op).replies = s.replies := rfl
@[simp] theorem becomeStuck_held :
    (s.becomeStuck d off op).held = s.held ++ [⟨.window s.active off, 32, op⟩] := rfl

variable (caps : List Capability) (permitted : Bool)

@[simp] theorem powerOnState_digests : (powerOnState caps permitted s).digests =
    s.digests.map fun d => { Digest.powerOn with faultLog := d.faultLog } := rfl
@[simp] theorem powerOnState_backend :
    (powerOnState caps permitted s).backend = selectBackend caps Config.accelBackends permitted := rfl
@[simp] theorem powerOnState_mem : (powerOnState caps permitted s).mem = s.mem := rfl
@[simp] theorem powerOnState_pending : (powerOnState caps permitted s).pending = s.pending := rfl
@[simp] theorem powerOnState_active : (powerOnState caps permitted s).active = s.active := rfl
@[simp] theorem powerOnState_replies : (powerOnState caps permitted s).replies = s.replies := rfl
@[simp] theorem powerOnState_held : (powerOnState caps permitted s).held = s.held := rfl

end StateUpdates

section RegisterReads

variable (b : Byte) (d : Digest)

@[simp] theorem readReg_cmd : readReg b d .cmd = .word 0 := rfl
@[simp] theorem readReg_status : readReg b d .status = .word (statusWord d) := rfl
@[simp] theorem readReg_srcAddrLo : readReg b d .srcAddrLo = .word d.srcAddrLo := rfl
@[simp] theorem readReg_srcAddrHi : readReg b d .srcAddrHi = .word d.srcAddrHi := rfl
@[simp] theorem readReg_srcLenLo : readReg b d .srcLenLo = .word d.srcLenLo := rfl
@[simp] theorem readReg_srcLenHi : readReg b d .srcLenHi = .word d.srcLenHi := rfl
@[simp] theorem readReg_backendId : readReg b d .backendId = .word (0#24 ++ b) := rfl
@[simp] theorem readReg_info : readReg b d .info = .word infoWord := rfl
@[simp] theorem readReg_reserved (k : Fin 4) : readReg b d (.reserved k) = .word 0 := rfl

theorem readReg_result_valid {d : Digest} (h : d.rv = true) (k : Fin 4) : readReg b d (.result k) = .word d.result[k] := by
  simp [readReg, h]

theorem readReg_result_unwritten {d : Digest} (h : d.rv = false) (k : Fin 4) :
    readReg b d (.result k) = .readFault k := by
  simp [readReg, h]

/-- The one read that gives no word. -/
theorem readReg_eq_readFault {d : Digest} {r : Reg} {k : Fin 4} :
    readReg b d r = .readFault k ↔ r = .result k ∧ d.rv = false := by
  cases r with
  | result j => cases h : d.rv <;> simp [readReg, h]
  | _ => simp [readReg]

end RegisterReads

section ExceptionUpdates

variable (r : FaultRecord) (d : Digest)

@[simp] theorem raiseException_state : (raiseException r d).state = d.state := by cases r <;> rfl
@[simp] theorem raiseException_buf : (raiseException r d).buf = d.buf := by cases r <;> rfl
@[simp] theorem raiseException_len : (raiseException r d).len = d.len := by cases r <;> rfl
@[simp] theorem raiseException_nbuf : (raiseException r d).nbuf = d.nbuf := by cases r <;> rfl
@[simp] theorem raiseException_rv : (raiseException r d).rv = d.rv := by cases r <;> rfl
@[simp] theorem raiseException_srcAddrLo : (raiseException r d).srcAddrLo = d.srcAddrLo := by cases r <;> rfl
@[simp] theorem raiseException_srcAddrHi : (raiseException r d).srcAddrHi = d.srcAddrHi := by cases r <;> rfl
@[simp] theorem raiseException_srcLenLo : (raiseException r d).srcLenLo = d.srcLenLo := by cases r <;> rfl
@[simp] theorem raiseException_srcLenHi : (raiseException r d).srcLenHi = d.srcLenHi := by cases r <;> rfl
@[simp] theorem raiseException_result : (raiseException r d).result = d.result := by cases r <;> rfl
@[simp] theorem raiseException_stuck : (raiseException r d).stuck = d.stuck := by cases r <;> rfl
@[simp] theorem raiseException_faultLog : (raiseException r d).faultLog = d.faultLog ++ [r] := by cases r <;> rfl
@[simp] theorem raiseIllegal_ill (w : Word) : (raiseException (.illegalCommand w) d).ill = true := rfl
@[simp] theorem raiseIllegal_range (w : Word) : (raiseException (.illegalCommand w) d).range = d.range := rfl
@[simp] theorem raiseRange_ill (a n : DWord) : (raiseException (.sourceRange a n) d).ill = d.ill := rfl
@[simp] theorem raiseRange_range (a n : DWord) : (raiseException (.sourceRange a n) d).range = true := rfl

end ExceptionUpdates

section DigestUpdates

variable (d : Digest)

@[simp] theorem countBytes_state (n : Nat) : (countBytes n d).state = d.state := rfl
@[simp] theorem countBytes_buf (n : Nat) : (countBytes n d).buf = d.buf := rfl
@[simp] theorem countBytes_len (n : Nat) : (countBytes n d).len = d.len + BitVec.ofNat 64 n := rfl
@[simp] theorem countBytes_nbuf (n : Nat) : (countBytes n d).nbuf = d.nbuf := rfl

@[simp] theorem resetDigest_state : (resetDigest d).state = initialState := rfl
@[simp] theorem resetDigest_buf : (resetDigest d).buf = Vector.replicate 64 0 := rfl
@[simp] theorem resetDigest_len : (resetDigest d).len = 0 := rfl
@[simp] theorem resetDigest_nbuf : (resetDigest d).nbuf = 0 := rfl
@[simp] theorem resetDigest_rv : (resetDigest d).rv = d.rv := rfl
@[simp] theorem resetDigest_ill : (resetDigest d).ill = false := rfl
@[simp] theorem resetDigest_range : (resetDigest d).range = false := rfl
@[simp] theorem resetDigest_srcAddrLo : (resetDigest d).srcAddrLo = d.srcAddrLo := rfl
@[simp] theorem resetDigest_srcAddrHi : (resetDigest d).srcAddrHi = d.srcAddrHi := rfl
@[simp] theorem resetDigest_srcLenLo : (resetDigest d).srcLenLo = d.srcLenLo := rfl
@[simp] theorem resetDigest_srcLenHi : (resetDigest d).srcLenHi = d.srcLenHi := rfl
@[simp] theorem resetDigest_result : (resetDigest d).result = d.result := rfl
@[simp] theorem resetDigest_stuck : (resetDigest d).stuck = d.stuck := rfl
@[simp] theorem resetDigest_faultLog : (resetDigest d).faultLog = d.faultLog := rfl

variable (c : Lane)

@[simp] theorem deliverResult_state : (deliverResult c d).state = d.state := rfl
@[simp] theorem deliverResult_buf : (deliverResult c d).buf = d.buf := rfl
@[simp] theorem deliverResult_len : (deliverResult c d).len = d.len := rfl
@[simp] theorem deliverResult_nbuf : (deliverResult c d).nbuf = d.nbuf := rfl
@[simp] theorem deliverResult_rv : (deliverResult c d).rv = true := rfl
@[simp] theorem deliverResult_ill : (deliverResult c d).ill = d.ill := rfl
@[simp] theorem deliverResult_range : (deliverResult c d).range = d.range := rfl
@[simp] theorem deliverResult_srcAddrLo : (deliverResult c d).srcAddrLo = d.srcAddrLo := rfl
@[simp] theorem deliverResult_srcAddrHi : (deliverResult c d).srcAddrHi = d.srcAddrHi := rfl
@[simp] theorem deliverResult_srcLenLo : (deliverResult c d).srcLenLo = d.srcLenLo := rfl
@[simp] theorem deliverResult_srcLenHi : (deliverResult c d).srcLenHi = d.srcLenHi := rfl
@[simp] theorem deliverResult_result : (deliverResult c d).result = resultWords c := rfl
@[simp] theorem deliverResult_stuck : (deliverResult c d).stuck = d.stuck := rfl
@[simp] theorem deliverResult_faultLog : (deliverResult c d).faultLog = d.faultLog := rfl

end DigestUpdates

end Sys2Proof.Machine
end

