-- ==== Sys2Proof/Laws/Transform.lean ====
section
/-! SUPPORT. The loop of Block over lists of bytes, and the lanes of the transform's parts (Machine/Transform.lean). -/

namespace Sys2Proof.Machine

theorem blockChunk_getElem (S : DigestState) (x : Chunk) (i : Nat) (h : i < 4) :
    (blockChunk S x)[i] = aesRound (chunkLane x ⟨i, h⟩) S[i] := by
  simp [blockChunk]

theorem chunkAt_toList (x : Chunk) : chunkAt x.toList 0 = x := by
  apply Vector.ext
  intro j h
  simp only [chunkAt, Nat.mul_zero, List.drop_zero, chunkOfList_getElem]
  rw [List.take_of_length_le (by simp), ← List.getElem_eq_getD (h := by simpa using h), Vector.getElem_toList]

theorem wholeChunks_nil : wholeChunks [] = [] := rfl

theorem wholeChunks_of_short {D : List Byte} (h : D.length < 64) : wholeChunks D = [] := by
  simp [wholeChunks, Nat.div_eq_of_lt h]

theorem wholeChunks_toList (x : Chunk) : wholeChunks x.toList = [x] := by
  simp [wholeChunks, chunkAt_toList]

/-- The chunks of whole blocks followed by more bytes. -/
theorem wholeChunks_append {A : List Byte} (B : List Byte) (h : A.length % 64 = 0) :
    wholeChunks (A ++ B) = wholeChunks A ++ wholeChunks B := by
  obtain ⟨a, ha⟩ : ∃ a, A.length = 64 * a := ⟨A.length / 64, by omega⟩
  have hlen : (A ++ B).length / 64 = a + B.length / 64 := by rw [List.length_append]; omega
  have hA : A.length / 64 = a := by omega
  simp only [wholeChunks, hlen, hA, List.range_add, List.map_append, List.map_map]
  refine congrArg₂ (· ++ ·) ?_ ?_
  · refine List.map_congr_left fun j hj => ?_
    have hj' : j < a := List.mem_range.1 hj
    simp only [chunkAt]
    rw [List.drop_append_of_le_length (by omega), List.take_append_of_le_length (by simp; omega)]
  · refine List.map_congr_left fun j _ => ?_
    simp only [chunkAt, Function.comp_apply]
    rw [Nat.mul_add, ← List.drop_drop, List.drop_left' ha]

/-- Bytes after the last whole block do not reach Block. -/
theorem wholeChunks_take {D : List Byte} : wholeChunks (D.take (64 * (D.length / 64))) = wholeChunks D := by
  conv_rhs => rw [← List.take_append_drop (64 * (D.length / 64)) D]
  rw [wholeChunks_append _ (by simp only [List.length_take]; omega),
    wholeChunks_of_short (D := D.drop (64 * (D.length / 64))) (by simp only [List.length_drop]; omega),
    List.append_nil]

@[simp] theorem absorb_nil (S : DigestState) : absorb S [] = S := rfl

theorem absorb_of_short (S : DigestState) {D : List Byte} (h : D.length < 64) : absorb S D = S := by
  simp [absorb, wholeChunks_of_short h]

theorem absorb_toList (S : DigestState) (x : Chunk) : absorb S x.toList = blockChunk S x := by
  simp [absorb, wholeChunks_toList]

theorem absorb_append (S : DigestState) {A : List Byte} (B : List Byte) (h : A.length % 64 = 0) :
    absorb S (A ++ B) = absorb (absorb S A) B := by
  simp [absorb, wholeChunks_append B h]

theorem absorb_take (S : DigestState) (D : List Byte) : absorb S (D.take (64 * (D.length / 64))) = absorb S D := by
  simp only [absorb, wholeChunks_take]

/-- The data cut at a whole number of blocks. -/
theorem absorb_split (S : DigestState) (D : List Byte) (n : Nat) (h : n % 64 = 0) (hn : n ≤ D.length) :
    absorb S D = absorb (absorb S (D.take n)) (D.drop n) := by
  conv_lhs => rw [← List.take_append_drop n D]
  exact absorb_append S _ (by simp only [List.length_take]; omega)

theorem injectLength_getElem (S : DigestState) (L : DWord) (i : Nat) (h : i < 4) :
    (injectLength S L)[i] = xorLane S[i] (lengthLane L) := by
  simp [injectLength]

/-- Only steps 4a to 4c of the schedule write lane 0, and they read lane 0 alone (R156). -/
theorem mixSchedule_lane0 (S : DigestState) :
    (mixSchedule S)[0] = selfRound (selfRound (selfRound S[0])) := by
  simp [mixSchedule, selfRound]

end Sys2Proof.Machine
end

