-- ==== Sys2Proof/Laws/Digest.lean ====
section
/-! SUPPORT. What DigestWrite does to the stream of an instance and what it leaves alone (Machine/DigestOps.lean, R111).
Proofs about the commands cite these and do not unfold DigestWrite. -/

namespace Sys2Proof.Machine

theorem SameInterface.refl (d : Digest) : SameInterface d d := ⟨rfl, rfl, rfl, rfl, rfl, rfl, rfl, rfl, rfl, rfl⟩

theorem SameInterface.trans {a b c : Digest} (h : SameInterface a b) (k : SameInterface b c) : SameInterface a c := by
  obtain ⟨h1, h2, h3, h4, h5, h6, h7, h8, h9, h10⟩ := h
  obtain ⟨k1, k2, k3, k4, k5, k6, k7, k8, k9, k10⟩ := k
  exact ⟨h1.trans k1, h2.trans k2, h3.trans k3, h4.trans k4, h5.trans k5, h6.trans k6, h7.trans k7, h8.trans k8,
    h9.trans k9, h10.trans k10⟩

@[simp] theorem liveBytes_length (d : Digest) : (liveBytes d).length = d.nbuf.val := by
  have := d.nbuf.isLt
  simp only [liveBytes, List.length_take, Vector.length_toList]
  omega

theorem liveBytes_of_nbuf_zero {d : Digest} (h : d.nbuf.val = 0) : liveBytes d = [] := by simp [liveBytes, h]

theorem completePartial_empty {d : Digest} (h : d.nbuf.val = 0) (p : List Byte) : completePartial d p = (d, p) := by
  simp [completePartial, h]

/-- Step (a) when the input does not fill the staged block: the bytes are staged and none is left. -/
theorem completePartial_short {d : Digest} (h : d.nbuf.val ≠ 0) {p : List Byte} (hp : d.nbuf.val + p.length < 64) :
    ∃ e, completePartial d p = (e, []) ∧ e.state = d.state ∧ e.len = d.len ∧ e.nbuf.val = d.nbuf.val + p.length ∧
      liveBytes e = liveBytes d ++ p ∧ e.buf = overlay d.buf d.nbuf.val p := by
  have hm : min (64 - d.nbuf.val) p.length = p.length := by omega
  refine ⟨{ d with buf := overlay d.buf d.nbuf.val p, nbuf := Fin.ofNat 64 (d.nbuf.val + p.length) }, ?_, rfl, rfl, ?_, ?_, rfl⟩
  · simp only [completePartial, h, if_false, hm, List.take_length, List.drop_length]
    rw [if_neg (by omega)]
  · exact Nat.mod_eq_of_lt hp
  · simp only [liveBytes, Fin.val_ofNat]
    rw [Nat.mod_eq_of_lt hp]
    exact take_overlay d.buf d.nbuf.val p (by omega)

/-- Step (a) when the input fills the staged block: one Block call on the valid bytes and the input bytes that fit. -/
theorem completePartial_full {d : Digest} (h : d.nbuf.val ≠ 0) {p : List Byte} (hp : 64 ≤ d.nbuf.val + p.length) :
    ∃ e, completePartial d p = (e, p.drop (64 - d.nbuf.val)) ∧
      e.state = absorb d.state (liveBytes d ++ p.take (64 - d.nbuf.val)) ∧ e.len = d.len ∧ e.nbuf.val = 0 ∧
      e.buf = overlay d.buf d.nbuf.val (p.take (64 - d.nbuf.val)) := by
  have hb := d.nbuf.isLt
  have hm : min (64 - d.nbuf.val) p.length = 64 - d.nbuf.val := by omega
  have hlen : (p.take (64 - d.nbuf.val)).length = 64 - d.nbuf.val := by simp only [List.length_take]; omega
  have hbuf : (overlay d.buf d.nbuf.val (p.take (64 - d.nbuf.val))).toList = liveBytes d ++ p.take (64 - d.nbuf.val) := by
    have := take_overlay d.buf d.nbuf.val (p.take (64 - d.nbuf.val)) (by omega)
    rw [List.take_of_length_le (by simp only [Vector.length_toList]; omega)] at this
    exact this
  refine ⟨{ d with
      buf := overlay d.buf d.nbuf.val (p.take (64 - d.nbuf.val))
      state := absorb d.state (overlay d.buf d.nbuf.val (p.take (64 - d.nbuf.val))).toList
      nbuf := 0 }, ?_, ?_, rfl, rfl, rfl⟩
  · simp only [completePartial, h, if_false, hm]
    rw [if_pos (by omega)]
  · simp only [hbuf]

/-- Step (a) leaves the interface alone. -/
theorem completePartial_interface (d : Digest) (p : List Byte) : SameInterface d (completePartial d p).1 := by
  simp only [completePartial]
  split
  · exact SameInterface.refl d
  · split <;> exact ⟨rfl, rfl, rfl, rfl, rfl, rfl, rfl, rfl, rfl, rfl⟩

theorem writeWholeBlocks_interface (d : Digest) (p : List Byte) : SameInterface d (writeWholeBlocks d p).1 := by
  simp only [writeWholeBlocks]
  split <;> exact ⟨rfl, rfl, rfl, rfl, rfl, rfl, rfl, rfl, rfl, rfl⟩

theorem stageLeftover_interface (d : Digest) (p : List Byte) : SameInterface d (stageLeftover d p) := by
  simp only [stageLeftover]
  split <;> exact ⟨rfl, rfl, rfl, rfl, rfl, rfl, rfl, rfl, rfl, rfl⟩

/-- DigestWrite writes STATE, BUF, LEN and NBUF and nothing else (R111). -/
theorem digestWrite_interface (d : Digest) (p : List Byte) : SameInterface d (digestWrite d p) := by
  simp only [digestWrite]
  refine SameInterface.trans ?_ (stageLeftover_interface _ _)
  refine SameInterface.trans ?_ (writeWholeBlocks_interface _ _)
  refine SameInterface.trans ?_ (completePartial_interface _ _)
  exact ⟨rfl, rfl, rfl, rfl, rfl, rfl, rfl, rfl, rfl, rfl⟩

/-- Step (b), whether or not there is a whole block. -/
theorem writeWholeBlocks_eq (d : Digest) (p : List Byte) :
    writeWholeBlocks d p = ({ d with state := absorb d.state p }, p.drop (64 * (p.length / 64))) := by
  simp only [writeWholeBlocks]
  split
  · rw [absorb_take]
  · rw [absorb_of_short d.state (by omega), Nat.div_eq_of_lt (by omega)]
    simp

@[simp] theorem writeWholeBlocks_nil (d : Digest) : writeWholeBlocks d [] = (d, []) := by simp [writeWholeBlocks]

@[simp] theorem stageLeftover_nil (d : Digest) : stageLeftover d [] = d := by simp [stageLeftover]

/-- Steps (b) and (c) from an empty staging buffer. -/
theorem writeTail_stream {d : Digest} (h : d.nbuf.val = 0) (p : List Byte) :
    let q := writeWholeBlocks d p
    let e := stageLeftover q.1 q.2
    e.state = absorb d.state p ∧ e.len = d.len ∧ e.nbuf.val = p.length % 64 ∧
      liveBytes e = p.drop (64 * (p.length / 64)) := by
  simp only [writeWholeBlocks_eq, stageLeftover]
  have hl : (p.drop (64 * (p.length / 64))).length = p.length % 64 := by simp only [List.length_drop]; omega
  split
  · rename_i h0
    refine ⟨rfl, rfl, by simp only [h]; omega, ?_⟩
    rw [List.eq_nil_of_length_eq_zero h0]
    exact liveBytes_of_nbuf_zero h
  · refine ⟨rfl, rfl, by simp only [hl, Fin.val_ofNat]; omega, ?_⟩
    simp only [liveBytes, Fin.val_ofNat]
    rw [Nat.mod_eq_of_lt (by omega)]
    have := take_overlay d.buf 0 (p.drop (64 * (p.length / 64))) (by omega)
    simpa only [Nat.zero_add, List.take_zero, List.nil_append] using this

/-- DigestWrite as an operation on the stream: the valid bytes and the input, cut at the last whole block (R111). -/
theorem digestWrite_stream (d : Digest) (p : List Byte) :
    (digestWrite d p).state = absorb d.state (liveBytes d ++ p) ∧
      (digestWrite d p).len = d.len + BitVec.ofNat 64 p.length ∧
      (digestWrite d p).nbuf.val = (d.nbuf.val + p.length) % 64 ∧
      liveBytes (digestWrite d p) = (liveBytes d ++ p).drop (64 * ((d.nbuf.val + p.length) / 64)) := by
  have hb := d.nbuf.isLt
  by_cases h : d.nbuf.val = 0
  · have hc := completePartial_empty (d := countBytes p.length d) h p
    have ht := writeTail_stream (d := countBytes p.length d) h p
    simp only [digestWrite, hc]
    simpa [liveBytes_of_nbuf_zero h, h] using ht
  · have hcount : liveBytes (countBytes p.length d) = liveBytes d := rfl
    by_cases hp : d.nbuf.val + p.length < 64
    · obtain ⟨e, he, h1, h2, h3, h4, -⟩ := completePartial_short (d := countBytes p.length d) h hp
      have hs : absorb d.state (liveBytes d ++ p) = d.state :=
        absorb_of_short _ (by rw [List.length_append, liveBytes_length]; exact hp)
      simp only [digestWrite, he, writeWholeBlocks_nil, stageLeftover_nil, hs, h1, h2, h3, h4, hcount]
      refine ⟨rfl, rfl, (Nat.mod_eq_of_lt hp).symm, ?_⟩
      rw [Nat.div_eq_of_lt hp, Nat.mul_zero, List.drop_zero]
    · obtain ⟨e, he, h1, h2, h3, -⟩ := completePartial_full (d := countBytes p.length d) h (p := p) (by simp; omega)
      simp only [countBytes_nbuf, countBytes_state, hcount] at he h1
      obtain ⟨t1, t2, t3, t4⟩ := writeTail_stream h3 (p.drop (64 - d.nbuf.val))
      have hA : (liveBytes d ++ p.take (64 - d.nbuf.val)).length = 64 := by
        rw [List.length_append, liveBytes_length, List.length_take]; omega
      have hsplit : liveBytes d ++ p =
          (liveBytes d ++ p.take (64 - d.nbuf.val)) ++ p.drop (64 - d.nbuf.val) := by
        rw [List.append_assoc, List.take_append_drop]
      have hl : (p.drop (64 - d.nbuf.val)).length = d.nbuf.val + p.length - 64 := by
        rw [List.length_drop]; omega
      simp only [digestWrite, he, t1, t2, t3, t4, h1, h2, hl]
      refine ⟨?_, rfl, by omega, ?_⟩
      · rw [hsplit]
        exact (absorb_append d.state _ (by omega)).symm
      · rw [hsplit, List.drop_append, hA,
          List.drop_of_length_le (l := liveBytes d ++ p.take (64 - d.nbuf.val)) (by omega), List.nil_append]
        congr 1
        omega

/-- BUF after a write that does not fill it: the bytes are staged behind the valid ones (R111). -/
theorem digestWrite_buf_short {d : Digest} {p : List Byte} (h : d.nbuf.val + p.length < 64) :
    (digestWrite d p).buf = overlay d.buf d.nbuf.val p := by
  by_cases h0 : d.nbuf.val = 0
  · have hc := completePartial_empty (d := countBytes p.length d) h0 p
    have hd : p.drop (64 * (p.length / 64)) = p := by
      rw [Nat.div_eq_of_lt (by omega), Nat.mul_zero, List.drop_zero]
    simp only [digestWrite, hc, writeWholeBlocks_eq, hd, h0, stageLeftover]
    by_cases hp : p.length = 0
    · simp [List.eq_nil_of_length_eq_zero hp]
    · simp [hp]
  · obtain ⟨e, he, -, -, -, -, hb⟩ := completePartial_short (d := countBytes p.length d) h0 h
    simp only [digestWrite, he, writeWholeBlocks_nil, stageLeftover_nil, hb]
    rfl

/-- BUF after a write that fills a staged block exactly (R111). -/
theorem digestWrite_buf_fill {d : Digest} {p : List Byte} (h0 : d.nbuf.val ≠ 0) (h : d.nbuf.val + p.length = 64) :
    (digestWrite d p).buf = overlay d.buf d.nbuf.val p := by
  obtain ⟨e, he, -, -, -, hb⟩ :=
    completePartial_full (d := countBytes p.length d) h0 (p := p) (by rw [countBytes_nbuf]; omega)
  have ht : p.take (64 - d.nbuf.val) = p := List.take_of_length_le (by omega)
  have hd : p.drop (64 - d.nbuf.val) = [] := List.drop_of_length_le (by omega)
  simp only [countBytes_nbuf, countBytes_buf, ht, hd] at he hb
  simp only [digestWrite, he, writeWholeBlocks_nil, stageLeftover_nil, hb]

@[simp] theorem digestWrite_nil (d : Digest) : digestWrite d [] = d := by
  have hc : countBytes 0 d = d := by simp [countBytes]
  by_cases h : d.nbuf.val = 0
  · simp [digestWrite, hc, completePartial_empty h]
  · have hn : ¬d.nbuf.val = 64 := by omega
    simp [digestWrite, hc, completePartial, h, hn]

/-- The stream side of `d` with the interface side of `e`. -/
def Digest.withInterfaceOf (d e : Digest) : Digest :=
  { e with state := d.state, buf := d.buf, len := d.len, nbuf := d.nbuf }

theorem withInterfaceOf_eq {d e : Digest} (h : SameInterface d e) : d.withInterfaceOf e = d := by
  obtain ⟨h1, h2, h3, h4, h5, h6, h7, h8, h9, h10⟩ := h
  simp only [Digest.withInterfaceOf, ← h1, ← h2, ← h3, ← h4, ← h5, ← h6, ← h7, ← h8, ← h9, ← h10]

theorem completePartial_withInterfaceOf (d e : Digest) (p : List Byte) :
    completePartial (d.withInterfaceOf e) p = ((completePartial d p).1.withInterfaceOf e, (completePartial d p).2) := by
  have hn : (d.withInterfaceOf e).nbuf = d.nbuf := rfl
  by_cases h : d.nbuf.val = 0
  · rw [completePartial_empty (d := d.withInterfaceOf e) h, completePartial_empty h]
  · simp only [completePartial, hn, h, if_false]
    by_cases hm : d.nbuf.val + min (64 - d.nbuf.val) p.length = 64
    · simp only [hm, if_true]
      rfl
    · simp only [hm, if_false]
      rfl

theorem writeWholeBlocks_withInterfaceOf (d e : Digest) (p : List Byte) :
    writeWholeBlocks (d.withInterfaceOf e) p = ((writeWholeBlocks d p).1.withInterfaceOf e, (writeWholeBlocks d p).2) := by
  simp only [writeWholeBlocks_eq]
  rfl

theorem stageLeftover_withInterfaceOf (d e : Digest) (p : List Byte) :
    stageLeftover (d.withInterfaceOf e) p = (stageLeftover d p).withInterfaceOf e := by
  simp only [stageLeftover]
  by_cases h : p.length = 0
  · simp only [h, if_true]
  · simp only [h, if_false]
    rfl

/-- DigestWrite reads nothing of the interface side (R111). -/
theorem digestWrite_withInterfaceOf (d e : Digest) (p : List Byte) :
    digestWrite (d.withInterfaceOf e) p = (digestWrite d p).withInterfaceOf e := by
  have hc : countBytes p.length (d.withInterfaceOf e) = (countBytes p.length d).withInterfaceOf e := rfl
  simp only [digestWrite, hc, completePartial_withInterfaceOf, writeWholeBlocks_withInterfaceOf,
    stageLeftover_withInterfaceOf]

theorem padDigest_withInterfaceOf (d e : Digest) :
    padDigest (d.withInterfaceOf e) = (padDigest d).withInterfaceOf e := by
  have hl : (d.withInterfaceOf e).len = d.len := rfl
  simp only [padDigest, hl, digestWrite_withInterfaceOf]
  by_cases h : d.len.toNat % 64 = 0
  · simp only [h, if_true]
  · simp only [h, if_false]

@[simp] theorem digestWrite_len (d : Digest) (p : List Byte) :
    (digestWrite d p).len = d.len + BitVec.ofNat 64 p.length := (digestWrite_stream d p).2.1

end Sys2Proof.Machine
end

