-- ==== Sys2Proof/Laws/Memory.lean ====
section
/-! SUPPORT. Host memory (Machine/Ops.lean): reading after a store, the canonical form, and what a range read answers. -/

namespace Sys2Proof.Machine

@[simp] theorem memRead_nil (a : Nat) : memRead [] a = none := rfl

/-- A read after a store of one byte. -/
theorem memRead_memWrite (m : Memory) (a k : Nat) (b : Byte) :
    memRead (memWrite m a b) k = if k = a then some b else memRead m k := by
  induction m with
  | nil =>
    by_cases h : k = a
    · simp [memWrite, memRead, h]
    · simp [memWrite, memRead, h, Ne.symm h]
  | cons e rest ih =>
    obtain ⟨k', v⟩ := e
    by_cases h1 : a < k'
    · by_cases h : k = a
      · simp [memWrite, memRead, h1, h]
      · simp [memWrite, memRead, h1, h, Ne.symm h]
    · by_cases h2 : a = k'
      · subst h2
        by_cases h : k = a
        · simp [memWrite, memRead, h]
        · simp [memWrite, memRead, h, Ne.symm h]
      · by_cases h : k = a
        · subst h
          simp [memWrite, memRead, h1, h2, ih, Ne.symm h2]
        · simp [memWrite, memRead, h1, h2, ih, h]

theorem mem_memWrite {m : Memory} {a : Nat} {b : Byte} {e : Host.Cell} (h : e ∈ memWrite m a b) :
    e = (a, b) ∨ e ∈ m := by
  induction m with
  | nil => simpa [memWrite] using h
  | cons c rest ih =>
    obtain ⟨k, v⟩ := c
    simp only [memWrite] at h
    split at h
    · simp_all
    · split at h
      · simp only [List.mem_cons] at h ⊢
        tauto
      · simp only [List.mem_cons] at h ⊢
        rcases h with h | h
        · tauto
        · have := ih h
          tauto

/-- A store inside the address space keeps the canonical form. -/
theorem memWrite_wf {m : Memory} {a : Nat} (b : Byte) (h : Memory.wf m) (ha : a < 2 ^ 64) :
    Memory.wf (memWrite m a b) := by
  refine ⟨?_, ?_⟩
  · have hp := h.1
    clear h
    induction m with
    | nil => simp [memWrite]
    | cons c rest ih =>
      obtain ⟨k, v⟩ := c
      rw [List.pairwise_cons] at hp
      obtain ⟨hk, hr⟩ := hp
      simp only [memWrite]
      split
      · rename_i hlt
        refine List.pairwise_cons.2 ⟨?_, List.pairwise_cons.2 ⟨hk, hr⟩⟩
        intro e he
        rcases List.mem_cons.1 he with rfl | he
        · exact hlt
        · exact lt_trans hlt (hk e he)
      · split
        · subst_vars
          exact List.pairwise_cons.2 ⟨fun e he => hk e he, hr⟩
        · refine List.pairwise_cons.2 ⟨?_, ih hr⟩
          intro e he
          rcases mem_memWrite he with rfl | he
          · simp only
            omega
          · exact hk e he
  · intro e he
    rcases mem_memWrite he with rfl | he
    · exact ha
    · exact h.2 e he

theorem memWriteRange_wf {m : Memory} {a : Nat} {bs : List Byte} (h : Memory.wf m) (ha : a + bs.length ≤ 2 ^ 64) :
    Memory.wf (memWriteRange m a bs) := by
  induction bs generalizing m a with
  | nil => exact h
  | cons b bs ih =>
    simp only [List.length_cons] at ha
    exact ih (memWrite_wf b h (by omega)) (by omega)

/-- A read after the host has stored a run of bytes. -/
theorem memRead_memWriteRange (m : Memory) (a k : Nat) (bs : List Byte) :
    memRead (memWriteRange m a bs) k = if a ≤ k ∧ k < a + bs.length then bs[k - a]? else memRead m k := by
  induction bs generalizing m a with
  | nil =>
    have : ¬(a ≤ k ∧ k < a) := by omega
    simp [memWriteRange, this]
  | cons b bs ih =>
    simp only [memWriteRange, ih, memRead_memWrite, List.length_cons]
    by_cases hka : k = a
    · subst hka
      simp
    · by_cases h1 : a + 1 ≤ k ∧ k < a + 1 + bs.length
      · have h2 : a ≤ k ∧ k < a + (bs.length + 1) := by omega
        obtain ⟨j, rfl⟩ : ∃ j, k = a + 1 + j := ⟨k - (a + 1), by omega⟩
        rw [if_pos h1, if_pos h2]
        have : a + 1 + j - a = j + 1 := by omega
        simp [this]
      · have h2 : ¬(a ≤ k ∧ k < a + (bs.length + 1)) := by omega
        rw [if_neg h1, if_neg h2, if_neg hka]

/-- A range read answers exactly when every byte of the range is admitted, and then those bytes in order. -/
theorem memReadRange_eq_some {m : Memory} {a n : Nat} {p : List Byte} :
    memReadRange m a n = some p ↔ p.length = n ∧ ∀ k, k < n → p[k]? = memRead m (a + k) ∧ (memRead m (a + k)).isSome := by
  induction n generalizing a p with
  | zero =>
    simp only [memReadRange, Option.some.injEq]
    constructor
    · rintro rfl
      simp
    · rintro ⟨h, -⟩
      exact (List.length_eq_zero_iff.1 h).symm
  | succ n ih =>
    simp only [memReadRange]
    constructor
    · intro h
      split at h
      · cases h
      · rename_i b hb
        split at h
        · cases h
        · rename_i bs hbs
          obtain ⟨hl, hk⟩ := ih.1 hbs
          obtain rfl := Option.some.inj h
          refine ⟨by simp [hl], ?_⟩
          intro k hlt
          cases k with
          | zero => simp [hb]
          | succ k =>
            have := hk k (by omega)
            have e : a + 1 + k = a + (k + 1) := by omega
            rw [e] at this
            simpa using this
    · rintro ⟨hl, hk⟩
      cases p with
      | nil => simp at hl
      | cons b bs =>
        have h0 := (hk 0 (by omega)).1
        simp only [List.getElem?_cons_zero, Nat.add_zero] at h0
        have hbs : memReadRange m (a + 1) n = some bs := by
          refine ih.2 ⟨by simpa using hl, fun k hlt => ?_⟩
          have := hk (k + 1) (by omega)
          have e : a + 1 + k = a + (k + 1) := by omega
          rw [e]
          simpa using this
        simp [← h0, hbs]

theorem memReadRange_eq_none {m : Memory} {a n : Nat} :
    memReadRange m a n = none ↔ ∃ k, k < n ∧ memRead m (a + k) = none := by
  induction n generalizing a with
  | zero => simp [memReadRange]
  | succ n ih =>
    simp only [memReadRange]
    cases hb : memRead m a with
    | none => exact ⟨fun _ => ⟨0, by omega, hb⟩, fun _ => rfl⟩
    | some b =>
      have step : (∃ k, k < n + 1 ∧ memRead m (a + k) = none) ↔ ∃ k, k < n ∧ memRead m (a + 1 + k) = none := by
        constructor
        · rintro ⟨k, hk, hn⟩
          cases k with
          | zero => simp [hb] at hn
          | succ k => exact ⟨k, by omega, by rw [← hn]; congr 1; omega⟩
        · rintro ⟨k, hk, hn⟩
          exact ⟨k + 1, by omega, by rw [← hn]; congr 1; omega⟩
      rw [step, ← ih]
      cases memReadRange m (a + 1) n <;> simp

end Sys2Proof.Machine
end

