-- ==== Sys2Proof/Laws/Ops.lean ====
section
/-! SUPPORT. What running on the active instance can answer, what padding does, and what each command does to the
interface side of an instance (Machine/Ops.lean, Machine/DigestOps.lean). -/

namespace Sys2Proof.Machine

/-- Everything `onActive` can do when it answers a next state. -/
theorem onActive_eq_next {s t : State} {f : Digest → Host.Outcome Digest Fault Refusal} :
    onActive s f = .next t ↔ ∃ d d', s.digests[s.active]? = some d ∧ f d = .next d' ∧ t = s.setActive d' := by
  simp only [onActive]
  cases hd : s.digests[s.active]? with
  | none => simp
  | some d =>
    cases hf : f d with
    | next d' =>
      simp only [hf]
      constructor
      · intro h
        injection h with h
        exact ⟨d, d', rfl, hf, h.symm⟩
      · rintro ⟨d1, d2, h1, h2, rfl⟩
        obtain rfl := Option.some.inj h1
        rw [hf] at h2
        injection h2 with h2
        rw [h2]
    | fault r => simp [hf]
    | refused r => simp [hf]

theorem onActive_of_some {s : State} {d : Digest} (h : s.digests[s.active]? = some d)
    (f : Digest → Host.Outcome Digest Fault Refusal) {d' : Digest} (hf : f d = .next d') :
    onActive s f = .next (s.setActive d') := by
  simp [onActive, h, hf]

@[simp] theorem setActive_getElem?_self {s : State} {d : Digest} (h : s.active < s.digests.length) :
    (s.setActive d).digests[s.active]? = some d := by
  simp [h]

theorem setActive_getElem?_other {s : State} {d : Digest} {j : Nat} (h : j ≠ s.active) :
    (s.setActive d).digests[j]? = s.digests[j]? := by
  simp [List.getElem?_set_ne (Ne.symm h)]

theorem setActive_outside (s : State) (d : Digest) : SameOutside s (s.setActive d) :=
  ⟨by simp, fun _ h => setActive_getElem?_other h, rfl, fun _ => rfl, rfl, rfl, rfl, rfl⟩

/-- DigestWrite keeps `NBUF = LEN mod 64` (R27). -/
theorem digestWrite_counts {d : Digest} (h : d.CountsAgree) (p : List Byte) : (digestWrite d p).CountsAgree := by
  obtain ⟨-, hl, hn, -⟩ := digestWrite_stream d p
  simp only [Digest.CountsAgree] at h ⊢
  rw [hn, hl, h]
  simp only [BitVec.toNat_add, BitVec.toNat_ofNat]
  omega

theorem padDigest_interface (d : Digest) : SameInterface d (padDigest d) := by
  simp only [padDigest]
  split
  · exact SameInterface.refl d
  · exact digestWrite_interface d _

theorem padDigest_counts {d : Digest} (h : d.CountsAgree) : (padDigest d).CountsAgree := by
  simp only [padDigest]
  split
  · exact h
  · exact digestWrite_counts h _

/-- WRITE on an instance: the three things it can do (R110, R204). -/
theorem writeCommand_eq_next {mem : Memory} {d d' : Digest} :
    writeCommand mem d = .next d' ↔
      (sourceOutOfRange (srcAddr d) (srcLen d) = true ∧ d' = raiseException (.sourceRange (srcAddr d) (srcLen d)) d) ∨
        (sourceOutOfRange (srcAddr d) (srcLen d) = false ∧
          ∃ p, memReadRange mem (srcAddr d).toNat (srcLen d).toNat = some p ∧ d' = digestWrite d p) := by
  simp only [writeCommand]
  cases h : sourceOutOfRange (srcAddr d) (srcLen d) with
  | true =>
    simp only [if_true]
    constructor
    · intro e
      injection e with e
      exact .inl ⟨trivial, e.symm⟩
    · rintro (⟨-, rfl⟩ | ⟨e, -⟩)
      · rfl
      · cases e
  | false =>
    cases hp : memReadRange mem (srcAddr d).toNat (srcLen d).toNat with
    | none => simp
    | some p =>
      simp only [Bool.false_eq_true, if_false]
      constructor
      · intro e
        injection e with e
        exact .inr ⟨trivial, p, rfl, e.symm⟩
      · rintro (⟨e, -⟩ | ⟨-, q, hq, rfl⟩)
        · cases e
        · rw [Option.some.inj hq]

end Sys2Proof.Machine
end

