-- ==== Sys2Proof/Laws/PerInstr.lean ====
section
/-! SUPPORT. Statements made per command: the form of its word (spec/30_encoding.md rules R70 to R73). -/

namespace Sys2Proof.Laws.WordForm

/-- A command is well formed, its word has OPCODE in bits 7:0 and zero in bits 31:8, and the word decodes to it. -/
def Statement (i : Instr) : Prop :=
  i.wellFormed = true ∧ opcodeField (encode i) = opcodeOf i ∧ reservedField (encode i) = 0 ∧ decode (encode i) = .ok i

theorem reset : Statement .reset := ⟨rfl, rfl, rfl, rfl⟩

theorem write : Statement .write := ⟨rfl, rfl, rfl, rfl⟩

theorem finalize : Statement .finalize := ⟨rfl, rfl, rfl, rfl⟩

theorem finalizeKeep : Statement .finalizeKeep := ⟨rfl, rfl, rfl, rfl⟩

end Sys2Proof.Laws.WordForm
end

