-- ==== Sys2Proof/Laws/Step.lean ====
section
/-! SUPPORT. Everything one step can do when it answers a next state, said once: what becomes of an instance, of host
memory, of BACKEND and of the queue. Invariants are derived from this. -/

namespace Sys2Proof.Machine

theorem decode_ok_iff (w : Word) (i : Instr) : decode w = .ok i → w = encode i := by
  intro h
  simp only [decode] at h
  split at h
  · cases h; assumption
  · split at h
    · cases h; assumption
    · split at h
      · cases h; assumption
      · split at h
        · cases h; assumption
        · split at h <;> cases h

theorem decode_error_ne {w : Word} {e : DecodeError} (h : decode w = .error e) (i : Instr) : w ≠ encode i := by
  rintro rfl
  cases i <;> cases h

/-- What issuing word `w` can make of an instance that has a step. -/
inductive DigestMove (mem : Memory) (w : Word) : Digest → Digest → Prop
  /-- RESET (R120). -/
  | reset (d : Digest) (word : w = encode .reset) : DigestMove mem w d (resetDigest d)
  /-- WRITE with its source read (R110). -/
  | write (d : Digest) (word : w = encode .write) (p : List Byte)
      (inRange : sourceOutOfRange (srcAddr d) (srcLen d) = false)
      (source : memReadRange mem (srcAddr d).toNat (srcLen d).toNat = some p) : DigestMove mem w d (digestWrite d p)
  /-- WRITE that raises SourceRange (R202). -/
  | sourceRange (d : Digest) (word : w = encode .write)
      (outOfRange : sourceOutOfRange (srcAddr d) (srcLen d) = true) :
      DigestMove mem w d (raiseException (.sourceRange (srcAddr d) (srcLen d)) d)
  /-- FINALIZE (R124). -/
  | finalize (d : Digest) (word : w = encode .finalize) : DigestMove mem w d (finalizeDigest Config.finWriteback d)
  /-- FINALIZE.KEEP (R130). -/
  | finalizeKeep (d : Digest) (word : w = encode .finalizeKeep) : DigestMove mem w d (finalizeKeepDigest d)
  /-- An illegal word (R201). -/
  | illegal (d : Digest) (notCommand : ∀ i, w ≠ encode i) : DigestMove mem w d (raiseException (.illegalCommand w) d)

theorem exec_reset (s : State) : exec .reset s = onActive s fun d => .next (resetDigest d) := rfl

theorem exec_write (s : State) : exec .write s = onActive s (writeCommand s.mem) := rfl

theorem exec_finalize (s : State) :
    exec .finalize s = onActive s fun d => .next (finalizeDigest Config.finWriteback d) := rfl

theorem exec_finalizeKeep (s : State) : exec .finalizeKeep s = onActive s fun d => .next (finalizeKeepDigest d) := rfl

/-- A command that answers a next state moves the active instance and nothing else. -/
theorem exec_cases {c : Instr} {s t : State} (h : exec c s = .next t) :
    ∃ d d', s.digests[s.active]? = some d ∧ DigestMove s.mem (encode c) d d' ∧ t = s.setActive d' := by
  cases c with
  | reset =>
    rw [exec_reset] at h
    obtain ⟨d, d', h1, h2, h3⟩ := onActive_eq_next.1 h
    injection h2 with h2
    exact ⟨d, d', h1, h2 ▸ .reset d rfl, h3⟩
  | write =>
    rw [exec_write] at h
    obtain ⟨d, d', h1, h2, h3⟩ := onActive_eq_next.1 h
    refine ⟨d, d', h1, ?_, h3⟩
    rcases writeCommand_eq_next.1 h2 with ⟨hr, rfl⟩ | ⟨hr, p, hp, rfl⟩
    · exact .sourceRange d rfl hr
    · exact .write d rfl p hr hp
  | finalize =>
    rw [exec_finalize] at h
    obtain ⟨d, d', h1, h2, h3⟩ := onActive_eq_next.1 h
    injection h2 with h2
    exact ⟨d, d', h1, h2 ▸ .finalize d rfl, h3⟩
  | finalizeKeep =>
    rw [exec_finalizeKeep] at h
    obtain ⟨d, d', h1, h2, h3⟩ := onActive_eq_next.1 h
    injection h2 with h2
    exact ⟨d, d', h1, h2 ▸ .finalizeKeep d rfl, h3⟩

theorem issueCommand_cases {w : Word} {s t : State} (h : issueCommand w s = .next t) :
    ∃ d d', s.digests[s.active]? = some d ∧ DigestMove s.mem w d d' ∧ t = s.setActive d' := by
  simp only [issueCommand] at h
  split at h
  · rename_i c hc
    rw [decode_ok_iff w c hc]
    exact exec_cases h
  · rename_i e he
    obtain ⟨d, d', h1, h2, h3⟩ := onActive_eq_next.1 h
    injection h2 with h2
    exact ⟨d, d', h1, h2 ▸ .illegal d (decode_error_ne he), h3⟩

/-- What a REGWRITE of word `w` at offset `off` can make of the instance it goes to. -/
inductive WriteMove (mem : Memory) (off : Nat) (w : Word) : Digest → Digest → Prop
  /-- To a register other than CMD (R102). -/
  | store (d : Digest) (r : Reg) (reg : regOfOffset off = some r) (notCmd : r ≠ .cmd) :
      WriteMove mem off w d (writeReg d r w)
  /-- To CMD: the word is issued (R104). -/
  | command (d d' : Digest) (cmd : off = 0) (move : DigestMove mem w d d') : WriteMove mem off w d d'

/-- A word has no step only where it is a WRITE (R203). -/
theorem issueCommand_fault {w : Word} {s : State} {f : Fault} (h : issueCommand w s = .fault f) : w = encode .write := by
  simp only [issueCommand] at h
  split at h
  · rename_i c hc
    have hw := decode_ok_iff w c hc
    cases c with
    | write => exact hw
    | reset => simp only [exec_reset, onActive] at h; split at h <;> cases h
    | finalize => simp only [exec_finalize, onActive] at h; split at h <;> cases h
    | finalizeKeep => simp only [exec_finalizeKeep, onActive] at h; split at h <;> cases h
  · simp only [onActive] at h
    split at h <;> cases h

theorem regOfOffset_cmd {off : Nat} (h : regOfOffset off = some .cmd) : off = 0 := by
  by_contra hne
  simp only [regOfOffset] at h
  split at h <;> contradiction

theorem settleWrite_of_ne {off : Nat} {w : Word} {d : Digest} {s : State} {o : Host.Outcome State Fault Refusal}
    (h : o ≠ .fault .sourceNotAdmitted) : settleWrite off w d s o = o := by
  unfold settleWrite
  split
  · exact absurd rfl h
  · rfl

theorem settleWrite_eq_next {off : Nat} {w : Word} {d : Digest} {s t : State} {o : Host.Outcome State Fault Refusal} :
    settleWrite off w d s o = .next t ↔
      o = .next t ∨ (o = .fault .sourceNotAdmitted ∧ t = s.becomeStuck d off (.write w)) := by
  simp only [settleWrite]
  split
  · simp [eq_comm]
  · next hne => exact ⟨.inl, fun h => h.elim id fun h => absurd h.1 hne⟩

/-- Everything a served register access can do. It is held, or leaves its instance stuck, or a read appends what the
register gives to the replies, or a write moves one instance. -/
theorem serveAccess_cases {a : BusAccess} {s t : State} (h : serveAccess a s = .next t) :
    ∃ i off d, routeTarget Config.instBase Config.numInstances a.target = some (i, off) ∧ s.digests[i]? = some d ∧
      ((d.stuck = true ∧ t = s.hold i off a.op) ∨
        (d.stuck = false ∧ a.op = .write (encode .write) ∧ off = 0 ∧
          t = ({ s with active := i } : State).becomeStuck d off a.op) ∨
        (d.stuck = false ∧ a.op = .read ∧ ∃ r, regOfOffset off = some r ∧
          t = { s with active := i, replies := s.replies ++ [readReg s.backend d r] }) ∨
        ∃ w d', d.stuck = false ∧ a.op = .write w ∧ WriteMove s.mem off w d d' ∧
          t = ({ s with active := i } : State).setActive d') := by
  simp only [serveAccess] at h
  split at h
  · split at h
    · cases h
    · rename_i i off hroute
      simp only [serveWindow] at h
      split at h
      · cases h
      · rename_i d hd
        refine ⟨i, off, d, hroute, hd, ?_⟩
        split at h
        · cases h
        · split at h
          · cases h
          · rename_i r hr
            split at h
            · rename_i hs
              injection h with h
              exact .inl ⟨hs, h.symm⟩
            · rename_i hs
              rw [Bool.not_eq_true] at hs
              right
              split at h
              · rename_i hop
                injection h with h
                exact .inr (.inl ⟨hs, hop, r, hr, h.symm⟩)
              · rename_i w hop
                rw [settleWrite_eq_next] at h
                by_cases hc : r = .cmd
                · subst hc
                  have hoff := regOfOffset_cmd hr
                  rcases h with h | ⟨h, ht⟩
                  · obtain ⟨e, e', h1, h2, h3⟩ := issueCommand_cases h
                    rw [hd] at h1
                    obtain rfl := Option.some.inj h1
                    exact .inr (.inr ⟨w, e', hs, hop, .command _ e' hoff h2, h3⟩)
                  · exact .inl ⟨hs, issueCommand_fault h ▸ hop, hoff, hop ▸ ht⟩
                · have hn : serveWrite r w d { s with active := i } =
                      .next (({ s with active := i } : State).setActive (writeReg d r w)) := by
                    cases r <;> first | exact absurd rfl hc | rfl
                  rw [hn] at h
                  rcases h with h | ⟨h, -⟩
                  · injection h with h
                    exact .inr (.inr ⟨w, _, hs, hop, .store d r hr hc, h.symm⟩)
                  · cases h
  · cases h

/-- Everything one step can do. -/
theorem step_cases {s t : State} (h : step s = .next t) :
    (s.pending = [] ∧ t = s) ∨
      (∃ a rest i off d, s.pending = .access a :: rest ∧
        routeTarget Config.instBase Config.numInstances a.target = some (i, off) ∧ s.digests[i]? = some d ∧
        ((d.stuck = true ∧ t = ({ s with pending := rest } : State).hold i off a.op) ∨
          (d.stuck = false ∧ a.op = .write (encode .write) ∧ off = 0 ∧
            t = ({ s with pending := rest, active := i } : State).becomeStuck d off a.op) ∨
          (d.stuck = false ∧ a.op = .read ∧ ∃ r, regOfOffset off = some r ∧
            t = { s with pending := rest, active := i, replies := s.replies ++ [readReg s.backend d r] }) ∨
          ∃ w d', d.stuck = false ∧ a.op = .write w ∧ WriteMove s.mem off w d d' ∧
            t = ({ s with pending := rest, active := i } : State).setActive d')) ∨
      (∃ addr bytes rest, s.pending = .memWrite addr bytes :: rest ∧ addr.toNat + bytes.length ≤ 2 ^ 64 ∧
        t = { s with pending := rest, mem := memWriteRange s.mem addr.toNat bytes }) ∨
      (∃ caps permitted rest, s.pending = .powerOn caps permitted :: rest ∧
        t = powerOnState caps permitted { s with pending := rest }) := by
  simp only [step] at h
  split at h
  · rename_i hp
    injection h with h
    exact .inl ⟨hp, h.symm⟩
  · rename_i e rest hp
    cases e with
    | access a =>
      obtain ⟨i, off, d, hr, hd, hc⟩ := serveAccess_cases h
      exact .inr (.inl ⟨a, rest, i, off, d, hp, hr, hd, hc⟩)
    | memWrite addr bytes =>
      simp only [serveEvent] at h
      split at h
      · rename_i hle
        injection h with h
        exact .inr (.inr (.inl ⟨addr, bytes, rest, hp, hle, h.symm⟩))
      · cases h
    | powerOn caps permitted =>
      injection h with h
      exact .inr (.inr (.inr ⟨caps, permitted, rest, hp, h.symm⟩))

end Sys2Proof.Machine
end

