-- ==== Sys2Proof/Machine/HostProgram.lean ====
section
/-! DEFINITION. The host-program syntax of the spec as lists of host events (spec/30_encoding.md rules R77 to R79). -/

namespace Sys2Proof.Machine

/-- `sw OFF, VALUE` on the window of instance `i` (R78). -/
def sw (i : Nat) (r : Reg) (w : Word) : HostEvent := .access ⟨.window i (regOffset r), 32, .write w⟩

/-- `lw OFF` on the window of instance `i` (R78). -/
def lw (i : Nat) (r : Reg) : HostEvent := .access ⟨.window i (regOffset r), 32, .read⟩

/-- A command, spelling `sw CMD, <word>` (R78). -/
def command (i : Nat) (c : Instr) : HostEvent := sw i .cmd (encode c)

/-- `SETSRC addr, len` (R79). -/
def setSrc (i : Nat) (addr len : DWord) : List HostEvent :=
  [sw i .srcAddrLo (addr.extractLsb' 0 32), sw i .srcAddrHi (addr.extractLsb' 32 32),
    sw i .srcLenLo (len.extractLsb' 0 32), sw i .srcLenHi (len.extractLsb' 32 32)]

/-- `WRITE addr, len` (R79). -/
def writeFrom (i : Nat) (addr len : DWord) : List HostEvent := setSrc i addr len ++ [command i .write]

/-- `READRES` (R79). -/
def readRes (i : Nat) : List HostEvent := [lw i (.result 0), lw i (.result 1), lw i (.result 2), lw i (.result 3)]

/-- `HASH addr, len` (R79). -/
def hashProgram (i : Nat) (addr len : DWord) : List HostEvent :=
  command i .reset :: (writeFrom i addr len ++ command i .finalize :: readRes i)

end Sys2Proof.Machine
end

