-- ==== Sys2Proof/Tests/Slice0.lean ====
section
/-! SUPPORT. Tests of the model, expected values from spec/95_test_vectors.md or from the rule named, and one witness for
each obligation that has hypotheses. -/

namespace Sys2Proof.Tests

open Sys2Proof.Machine Sys2Proof.Claims

-- Elaborating the kernel evaluations below one after another keeps the compilation's memory small.
set_option Elab.async false

/-- TEST_INIT_B, the bytes 00 .. 0f. -/
def laneB : Lane := Vector.ofFn fun j => BitVec.ofNat 8 j.val

/-- An instance after power-on, with TEST_INIT_B for INIT_LANE. -/
def fresh : Digest := { Digest.powerOn with state := Vector.replicate 4 laneB }

/-- `fresh` with the SRC registers holding `a` and `n`. -/
def source (a n : DWord) : Digest :=
  { fresh with
    srcAddrLo := a.extractLsb' 0 32
    srcAddrHi := a.extractLsb' 32 32
    srcLenLo := n.extractLsb' 0 32
    srcLenHi := n.extractLsb' 32 32 }

/-- A machine of two instances, the first of them `d`, with BACKEND 7 and the events `es` pending. -/
def machine (d : Digest) (m : Memory) (es : List HostEvent) : State where
  digests := [d, fresh]
  backend := 7
  mem := m
  pending := es
  active := 0
  replies := []
  held := []

/-- The state after an outcome, if there is one. -/
def nextOf (o : Host.Outcome State Fault Refusal) : Option State :=
  match o with
  | .next t => some t
  | .fault _ => none
  | .refused _ => none

/-- The first instance after an outcome. -/
def firstOf (o : Host.Outcome State Fault Refusal) : Option Digest := (nextOf o).bind fun t => t.digests[0]?

/-- The seven bytes of spec/95_test_vectors.md program P1 at 0x1000. -/
def memP1 : Memory :=
  [(0x1000, 0x4e), (0x1001, 0x41), (0x1002, 0x42), (0x1003, 0x48), (0x1004, 0x61), (0x1005, 0x73), (0x1006, 0x68)]

/-- Backend 1 of 95_test_vectors.md section 3.10; capA is capability 10. -/
def backendA : AccelBackend := ⟨1, 10, by decide⟩

/-- Backend 2 of 95_test_vectors.md section 3.10; capB is capability 20. -/
def backendB : AccelBackend := ⟨2, 20, by decide⟩

/-- 64 bytes of which the first `k` are `b` and the others zero. -/
def staged (k : Nat) (b : Byte) : Chunk := Vector.ofFn fun j => if j.val < k then b else 0

section Encoding

/-- The words of 30_encoding.md R71, bit by bit: RSV in 31:8, OPCODE in 7:0. -/
theorem test_decode_words :
    decode 0b00000000000000000000000000000001#32 = .ok .reset ∧
      decode 0b00000000000000000000000000000010#32 = .ok .write ∧
      decode 0b00000000000000000000000000000011#32 = .ok .finalize ∧
      decode 0b00000000000000000000000000000100#32 = .ok .finalizeKeep := by decide

/-- The illegal words of 95_test_vectors.md section 3.9. -/
theorem test_decode_illegal :
    decode 0x00000000#32 = .error .unknownOpcode ∧ decode 0x00000005#32 = .error .unknownOpcode ∧
      decode 0x000000FF#32 = .error .unknownOpcode ∧ decode 0x00000101#32 = .error .reservedBitSet ∧
      decode 0x80000003#32 = .error .reservedBitSet := by decide

/-- The rows of opcode_table.json, by their match values. -/
theorem test_decodeTableWord :
    decodeTableWord 32 1 = some .reset ∧ decodeTableWord 32 2 = some .write ∧ decodeTableWord 32 3 = some .finalize ∧
      decodeTableWord 32 4 = some .finalizeKeep ∧ decodeTableWord 32 5 = none := by decide

/-- R58: one access for each check that refuses it, and a host store past 2^64 (R50). -/
theorem test_wellFormed_refuses :
    BusAccess.wellFormed ⟨.window 0 0x04, 8, .read⟩ = false ∧ BusAccess.wellFormed ⟨.window 0 0x02, 32, .read⟩ = false ∧
      BusAccess.wellFormed ⟨.window 0 0x40, 32, .read⟩ = false ∧
      HostEvent.wellFormed (.memWrite 0xFFFFFFFFFFFFFFFF [0, 0]) = false ∧
      HostEvent.wellFormed (.memWrite 0xFFFFFFFFFFFFFFFF [0]) = true ∧
      BusAccess.wellFormed ⟨.window 0 0x3C, 32, .read⟩ = true := by decide

/-- R73: no command has an operand field to be ill formed in. -/
theorem test_wellFormed_commands : ∀ i : Instr, i.wellFormed = true := by intro i; cases i <;> rfl

/-- The pseudo-instruction `SETSRC 0x1000, 7` of program P1, statements 1 to 4. -/
theorem test_setSrc : setSrc 0 0x1000 7 =
    [.access ⟨.window 0 0x08, 32, .write 0x1000⟩, .access ⟨.window 0 0x0C, 32, .write 0⟩,
      .access ⟨.window 0 0x10, 32, .write 7⟩, .access ⟨.window 0 0x14, 32, .write 0⟩] := by decide

theorem test_step_runs_reset : step (State.reset.withFetchWord 32 1) = exec .reset State.reset := by rfl
theorem test_step_runs_write : step (State.reset.withFetchWord 32 2) = exec .write State.reset := by rfl
theorem test_step_runs_finalize : step (State.reset.withFetchWord 32 3) = exec .finalize State.reset := by rfl
theorem test_step_runs_finalizeKeep : step (State.reset.withFetchWord 32 4) = exec .finalizeKeep State.reset := by rfl

end Encoding

section Transform

/-- 95_test_vectors.md section 3.1, S-box spot values. -/
theorem test_sbox : [0x00, 0x01, 0x10, 0x53, 0x7f, 0x80, 0xfe, 0xff].map sbox =
    [0x63, 0x7c, 0xca, 0xed, 0xd2, 0xcd, 0xbb, 0x16] := by decide

/-- 95_test_vectors.md section 3.1. -/
theorem test_shiftRows : (shiftRows laneB).toList =
    [0x00, 0x05, 0x0a, 0x0f, 0x04, 0x09, 0x0e, 0x03, 0x08, 0x0d, 0x02, 0x07, 0x0c, 0x01, 0x06, 0x0b] := by
  decide +kernel

/-- 95_test_vectors.md section 3.1. -/
theorem test_mixColumns : (mixColumns laneB).toList =
    [0x02, 0x07, 0x00, 0x05, 0x06, 0x03, 0x04, 0x01, 0x0a, 0x0f, 0x08, 0x0d, 0x0e, 0x0b, 0x0c, 0x09] := by
  decide +kernel

/-- 95_test_vectors.md section 2: FIPS-197 appendix B, round 1. -/
theorem test_fips_round :
    aesRound
        #v[0xa0, 0xfa, 0xfe, 0x17, 0x88, 0x54, 0x2c, 0xb1, 0x23, 0xa3, 0x39, 0x39, 0x2a, 0x6c, 0x76, 0x05]
        #v[0x19, 0x3d, 0xe3, 0xbe, 0xa0, 0xf4, 0xe2, 0x2b, 0x9a, 0xc6, 0x8d, 0x2a, 0xe9, 0xf8, 0x48, 0x08] =
      #v[0xa4, 0x9c, 0x7f, 0xf2, 0x68, 0x9f, 0x35, 0x2b, 0x6b, 0x5b, 0xea, 0x43, 0x02, 0x6a, 0x50, 0x49] := by
  decide +kernel

/-- 95_test_vectors.md section 3.1: table entries, and F(00..0f) through the table form. -/
theorem test_table : te 0 0x00 = 0xc66363a5#32 ∧ te 0 0x01 = 0xf87c7c84#32 ∧ te 1 0x00 = 0xa5c66363#32 ∧
    (aesRoundTable laneB laneB).toList =
      [0x6a, 0x6b, 0x5e, 0x46, 0x28, 0x68, 0x35, 0x56, 0xb8, 0xd0, 0x57, 0x6a, 0x2b, 0x91, 0x2f, 0x53] := by
  decide +kernel

/-- 95_test_vectors.md section 3.2: two chunks. -/
theorem test_block_two_chunks :
    block (Vector.replicate 4 (Vector.replicate 16 0)) (zeros 128) =
      some (Vector.replicate 4 (Vector.replicate 16 0xfb)) := by decide +kernel

/-- 95_test_vectors.md section 3.3: the length block. -/
theorem test_length_block :
    injectLength (Vector.replicate 4 (Vector.replicate 16 0)) 0x0807060504030201 =
      Vector.replicate 4 #v[1, 2, 3, 4, 5, 6, 7, 8, 0, 0, 0, 0, 0, 0, 0, 0] := by decide +kernel

/-- 95_test_vectors.md section 3.3: FinalizeTransform(00^64, 1), lanes 0 and 3. -/
theorem test_finalizeTransform :
    let T := finalizeTransform (Vector.replicate 4 (Vector.replicate 16 0)) 1
    T[0].toList =
        [0x00, 0xa8, 0xc6, 0x2b, 0x99, 0xa5, 0x2b, 0xc6, 0xb4, 0x05, 0x5f, 0xab, 0x54, 0x09, 0x08, 0xb7] ∧
      T[3] = #v[1, 0, 0, 0, 0, 0, 0, 0, 0, 0, 0, 0, 0, 0, 0, 0] := by decide +kernel

/-- 95_test_vectors.md section 3.10. -/
theorem test_select :
    selectBackend [10] [] true = 0 ∧ selectBackend [] [backendA] true = 0 ∧
      selectBackend [20] [backendA, backendB] true = 2 ∧ selectBackend [10, 20] [backendA, backendB] true = 1 ∧
      selectBackend [10, 20] [backendB, backendA] true = 2 ∧ selectBackend [10] [backendA] false = 0 := ⟨rfl, rfl, rfl, rfl, rfl, rfl⟩

end Transform

section Commands

/-- R120 and 95_test_vectors.md section 3.9: after FINALIZE and an illegal word, RESET leaves STATUS = 1. -/
theorem test_reset_status :
    (firstOf (exec .reset (machine { fresh with rv := true, ill := true, len := 5 } [] []))).map
      (fun d => (statusWord d, d.len, d.nbuf)) = some (1, 0, 0) := by rfl

/-- 95_test_vectors.md section 3.6, step T4: one byte completes the block; the first bytes of lanes 0 and 3. -/
theorem test_write_completes_block :
    (firstOf (exec .write (machine
      { source 0x1000 1 with buf := (staged 63 0x22).set 0 0x11, len := 63, nbuf := 63 } [(0x1000, 0x33)] []))).map
      (fun d => (d.len, d.nbuf, d.state[0][0], d.state[0][1], d.state[1][0], d.state[3][15])) =
    some (64, 0, 0x7b, 0x48, 0x48, 0x6f) := by decide +kernel

/-- 95_test_vectors.md section 3.6, V-WRAP: the counter wraps. -/
theorem test_write_wraps :
    (firstOf (exec .write (machine
      { source 0x1000 1 with len := 0xFFFFFFFFFFFFFFFF, nbuf := 63 } [(0x1000, 0x33)] []))).map
      (fun d => (d.len, d.nbuf)) = some (0, 0) := by decide +kernel

/-- Program P1, statement 6: FINALIZE with the seven bytes staged. -/
theorem test_finalize :
    (firstOf (exec .finalize (machine
      { fresh with buf := overlay fresh.buf 0 (memP1.map Prod.snd), len := 7, nbuf := 7 } [] []))).map
      (fun d => (d.result.toList, d.rv, d.len, d.nbuf, d.state[0][0])) =
    some ([0x1443de65, 0x16544ed6, 0x0e71bef1, 0x5e1bc10b], true, 64, 0, 0x24) := by decide +kernel

/-- 95_test_vectors.md section 3.7: FINALIZE.KEEP after byte 11 gives `66596f3c..` and leaves LEN 1 and NBUF 1. -/
theorem test_finalizeKeep :
    (firstOf (exec .finalizeKeep (machine { fresh with buf := staged 1 0x11, len := 1, nbuf := 1 } [] []))).map
      (fun d => (d.result.toList, d.rv, d.len, d.nbuf)) =
    some ([0x3c6f5966, 0xa5a93df6, 0xdc3f97e2, 0x4aa5116f], true, 1, 1) := by decide +kernel

/-- 95_test_vectors.md section 3.9: an illegal word leaves STATUS = 2 and RESET does not run. -/
theorem test_illegal_word :
    (firstOf (step (machine { fresh with len := 9 } [] [sw 0 .cmd 0x00000101]))).map
      (fun d => (statusWord d, d.len, d.faultLog)) = some (2, 9, [.illegalCommand 0x00000101]) := by decide +kernel

/-- 95_test_vectors.md section 3.9: a source range past 2^64, and one that ends at 2^64. -/
theorem test_source_range :
    (firstOf (exec .write (machine (source 0xFFFFFFFFFFFFFFFF 2) [(0xFFFFFFFFFFFFFFFF, 5)] []))).map
        (fun d => (statusWord d, d.len)) = some (4, 0) ∧
      (firstOf (exec .write (machine (source 0xFFFFFFFFFFFFFFFF 1) [(0xFFFFFFFFFFFFFFFF, 5)] []))).map
        (fun d => (statusWord d, d.len, d.buf[0])) = some (0, 1, 5) := by decide +kernel

/-- 95_test_vectors.md section 3.9, the last row: a source byte that memory refuses. -/
theorem test_stuck : exec .write (machine (source 0x1000 8) memP1 []) = .fault .sourceNotAdmitted := by rfl

/-- R203: the stuck WRITE sets no status bit and keeps LEN; the machine goes on and nothing has completed. -/
theorem test_stuck_step :
    (nextOf (step (machine (source 0x1000 8) memP1 [sw 0 .cmd 2, sw 1 .cmd 2]))).map
        (fun t => (t.digests.map fun d => (d.stuck, statusWord d, d.len), t.pending, t.held)) =
      some ([(true, 0, 0), (false, 0, 0)], [sw 1 .cmd 2], [⟨.window 0 0x00, 32, .write 2⟩]) := by decide +kernel

/-- 95_test_vectors.md section 3.8: what reads return. -/
theorem test_reads :
    readReg 0 fresh .cmd = .word 0 ∧ readReg 0 fresh .status = .word 0 ∧ readReg 0 fresh .info = .word 0x00004010 ∧
      readReg 0 fresh .backendId = .word 0 ∧ readReg 0 fresh (.reserved 0) = .word 0 ∧
      readReg 0 (writeReg fresh .info 0x12345678) .info = .word 0x00004010 ∧
      readReg 0 (writeReg fresh .status 0xFFFFFFFF) .status = .word 0 ∧
      srcAddr (writeReg fresh .srcAddrHi 1) = 0x100000000 := by decide +kernel

/-- 95_test_vectors.md section 3.8, `lw RESULT0` while STATUS.RV = 0: the fault is recorded and no value given (93); the
machine goes on, with STATUS and the fault log as they were (R101). -/
theorem test_read_unwritten :
    (nextOf (step (machine fresh [] [lw 0 (.result 0), lw 0 .status]))).map
        (fun t => (t.replies, t.pending, t.digests.map fun d => (statusWord d, d.faultLog))) =
      some ([.readFault 0], [lw 0 .status], [(0, []), (0, [])]) := by decide +kernel

/-- 95_test_vectors.md section 3.8: accesses a model refuses. -/
theorem test_refused_accesses :
    serveAccess ⟨.window 0 0x04, 8, .read⟩ (machine fresh [] []) = .refused .accessWidth ∧
      serveAccess ⟨.window 0 0x02, 32, .read⟩ (machine fresh [] []) = .refused .accessMisaligned ∧
      serveAccess ⟨.window 0 0x40, 32, .read⟩ (machine fresh [] []) = .refused .accessOutsideWindow :=
  ⟨rfl, rfl, rfl⟩

end Commands

section Witnesses

/-- Two instances, nothing pending, the second one active. -/
def second (d : Digest) (m : Memory) : State := { machine fresh m [] with digests := [fresh, d], active := 1 }

/-- A completed digest: RESULT valid, both sticky bits set and justified. -/
def worn : Digest :=
  { source 0x1000 7 with
    rv := true
    ill := true
    range := true
    faultLog := [.illegalCommand 0, .sourceRange 0xFFFFFFFFFFFFFFFF 2] }

/-- Three bytes staged, LEN = 3. -/
def threeStaged : Digest := { source 0x1000 7 with buf := staged 3 0x61, len := 3, nbuf := 3 }

theorem witness_readsAt (off : Nat) :
    ReadsAt (machine fresh [] [.access ⟨.window 0 off, 32, .read⟩]) 0 off fresh [] := ⟨rfl, rfl, rfl⟩

theorem witness_writesAt (off : Nat) (w : Word) :
    WritesAt (machine fresh [] [.access ⟨.window 0 off, 32, .write w⟩]) 0 off w fresh [] := ⟨rfl, rfl, rfl⟩

theorem witness_activeIs (d : Digest) (m : Memory) : ActiveIs (machine d m []) d ∧ ActiveIs (second d m) d := ⟨rfl, rfl⟩

theorem witness_DecodeMatchesWholeWord :
    (0x00000101#32).extractLsb' 0 8 ∈ [0x01#8, 0x02#8, 0x03#8, 0x04#8] ∧ (0x00000101#32).extractLsb' 8 24 ≠ 0 ∧
      (0x80000004#32).extractLsb' 0 8 ∈ [0x01#8, 0x02#8, 0x03#8, 0x04#8] ∧ (0x80000004#32).extractLsb' 8 24 ≠ 0 := by
  decide

/-- Each of the four words, and 0 and 5 beside them. -/
theorem witness_StepRunsCommandWrite :
    WritesAt (machine fresh [] [sw 0 .cmd 0x00000004]) 0 0x00 0x00000004 fresh [] ∧
      WritesAt (machine fresh [] [sw 0 .cmd 0]) 0 0x00 0 fresh [] ∧
      (0#32) ∉ [0x00000001#32, 0x00000002#32, 0x00000003#32, 0x00000004#32] ∧
      (5#32) ∉ [0x00000001#32, 0x00000002#32, 0x00000003#32, 0x00000004#32] :=
  ⟨⟨rfl, rfl, rfl⟩, ⟨rfl, rfl, rfl⟩, by decide, by decide⟩

theorem witness_StepIsExecOfDecoded :
    WritesAt (machine fresh [] [sw 0 .cmd 0x00000002]) 0 0x00 0x00000002 fresh [] ∧ decode 0x00000002 = .ok .write ∧
      Instr.write.wellFormed = true ∧ ActiveIs State.reset Digest.powerOn ∧ Digest.powerOn.stuck = false ∧
      exec .write State.reset ≠ .fault .sourceNotAdmitted :=
  ⟨⟨rfl, rfl, rfl⟩, rfl, rfl, rfl, rfl, fun h => nomatch (show Host.Outcome.next _ = _ from h)⟩

/-- Two windows that touch, the highest offset of the second one; an address outside both. -/
theorem witness_BusAddressReachesWindow :
    let base : Nat → DWord := fun i => BitVec.ofNat 64 (0x40 * i)
    (1 < 2 ∧ 0x3F < 64 ∧ (base 1).toNat + 0x3F < 2 ^ 64 ∧
      ∀ j k, j < 2 → k < 2 → j ≠ k →
        (base j).toNat + 64 ≤ (base k).toNat ∨ (base k).toNat + 64 ≤ (base j).toNat) ∧
      routeTarget base 2 (.address (base 1 + BitVec.ofNat 64 0x3F)) = some (1, 0x3F) ∧
      ∀ i, i < 2 → (0x80#64).toNat < (base i).toNat ∨ (base i).toNat + 64 ≤ (0x80#64).toNat := by
  refine ⟨⟨by decide, by decide, by decide, ?_⟩, by decide, ?_⟩
  · intro j k hj hk hne
    interval_cases j <;> interval_cases k <;> first | exact absurd rfl hne | decide
  · intro i hi
    interval_cases i <;> decide

/-- A window whose last 32 offsets lie past 2^64: the offset 0x1F has a bus address (log entry 27). -/
theorem witness_BusAddressReachesWindow_top :
    let base : Nat → DWord := fun _ => 0xFFFFFFFFFFFFFFE0
    (0 < 1 ∧ 0x1F < 64 ∧ (base 0).toNat + 0x1F < 2 ^ 64) ∧
      routeTarget base 1 (.address (base 0 + BitVec.ofNat 64 0x1F)) = some (0, 0x1F) := by decide

/-- Widths below and above 32; the offsets 0x40 (outside), 0x3F, 0x01 (misaligned). -/
theorem witness_OtherAccessesRefused :
    (8 ≠ 32 ∧ 64 ≠ 32) ∧ (machine fresh [] []).digests[1]? = some fresh ∧ 0x3F < 0x40 ∧
      (0x3F ≤ 0x3F ∧ 0x3F % 4 ≠ 0) ∧ 0x01 ≤ 0x3F ∧ 0x01 % 4 ≠ 0 := ⟨by decide, rfl, by decide⟩

/-- RV = 1 and RV = 0, the lowest and highest register of each group of registers. -/
theorem witness_RegisterReads :
    ReadsAt (machine worn [] [lw 0 (.result 3)]) 0 (0x20 + 4 * (3 : Fin 4).val) worn [] ∧ worn.rv = true ∧
      ReadsAt (machine fresh [] [lw 0 (.result 0)]) 0 (0x20 + 4 * (0 : Fin 4).val) fresh [] ∧ fresh.rv = false ∧
      ReadsAt (machine fresh [] [lw 1 (.reserved 3)]) 1 (0x30 + 4 * (3 : Fin 4).val) fresh [] ∧
      ReadsAt (machine worn [] [lw 0 .info]) 0 0x1C worn [] :=
  ⟨⟨rfl, rfl, rfl⟩, rfl, ⟨rfl, rfl, rfl⟩, rfl, ⟨rfl, rfl, rfl⟩, ⟨rfl, rfl, rfl⟩⟩

/-- RESULT0 and RESULT3 of an instance with RV = 0. -/
theorem witness_UnwrittenResultRead :
    ReadsAt (machine fresh [] [lw 0 (.result 0)]) 0 (0x20 + 4 * (0 : Fin 4).val) fresh [] ∧
      ReadsAt (machine fresh [] [lw 1 (.result 3)]) 1 (0x20 + 4 * (3 : Fin 4).val) fresh [] ∧ fresh.rv = false :=
  ⟨⟨rfl, rfl, rfl⟩, ⟨rfl, rfl, rfl⟩, rfl⟩

theorem witness_RegisterWrites :
    WritesAt (machine worn [] [sw 0 .srcLenHi 9]) 0 0x14 9 worn [] ∧
      WritesAt (machine worn [] [sw 1 (.reserved 3) 9]) 1 0x3C 9 fresh [] ∧
      0x3C ∈ [0x04, 0x18, 0x1C, 0x20, 0x24, 0x28, 0x2C, 0x30, 0x34, 0x38, 0x3C] :=
  ⟨⟨rfl, rfl, rfl⟩, ⟨rfl, rfl, rfl⟩, by decide⟩

theorem witness_CommandRegister :
    WritesAt (machine worn [] [sw 0 .cmd 1]) 0 0x00 1 worn [] ∧ ReadsAt (machine worn [] [lw 0 .cmd]) 0 0x00 worn [] :=
  ⟨⟨rfl, rfl, rfl⟩, rfl, rfl, rfl⟩

theorem witness_SourceRegisters :
    (∃ t e, exec .write (second threeStaged memP1) = .next t ∧ ActiveIs (second threeStaged memP1) threeStaged ∧
      ActiveIs t e) ∧
      Instr.reset ≠ .write ∧ ∃ e, Becomes .reset (second threeStaged []) e :=
  ⟨⟨_, _, rfl, rfl, rfl⟩, by decide, _, rfl⟩

theorem witness_BackendIdRegister :
    ReadsAt (machine worn [] [lw 0 .backendId]) 0 0x18 worn [] ∧
      ReadsAt (machine worn [] [lw 1 .backendId]) 1 0x18 fresh [] ∧
      Replies (machine worn [] [lw 0 .backendId]) 0 [] 7 ∧ Replies (machine worn [] [lw 1 .backendId]) 1 [] 7 ∧
      WritesAt (machine worn [] [sw 0 .backendId 1]) 0 0x18 1 worn [] :=
  ⟨⟨rfl, rfl, rfl⟩, ⟨rfl, rfl, rfl⟩, rfl, rfl, rfl, rfl, rfl⟩

theorem witness_InfoRegister :
    ReadsAt (machine worn [] [lw 0 .info]) 0 0x1C worn [] ∧ WritesAt (machine worn [] [sw 0 .info 1]) 0 0x1C 1 worn [] :=
  ⟨⟨rfl, rfl, rfl⟩, rfl, rfl, rfl⟩

theorem witness_ReservedRegisters :
    0x3C ∈ [0x30, 0x34, 0x38, 0x3C] ∧ ReadsAt (machine worn [] [lw 0 (.reserved 3)]) 0 0x3C worn [] ∧
      WritesAt (machine worn [] [sw 0 (.reserved 3) 1]) 0 0x3C 1 worn [] := ⟨by decide, ⟨rfl, rfl, rfl⟩, rfl, rfl, rfl⟩

theorem witness_notPowerOn (d : Digest) (m : Memory) (a : BusAccess) (es : List HostEvent) :
    NotPowerOn (machine d m (.access a :: es)) := by
  intro caps permitted rest h
  cases h

theorem witness_StatusBits :
    WritesAt (machine worn [] [sw 0 .status 1]) 0 0x04 1 worn [] ∧
      NotPowerOn (machine worn memP1 [sw 0 .cmd 1]) ∧
      (∃ t e, step (machine worn memP1 [sw 0 .cmd 1]) = .next t ∧ t.digests[0]? = some e) ∧ worn.rv = true :=
  ⟨⟨rfl, rfl, rfl⟩, witness_notPowerOn _ _ _ _, ⟨_, _, rfl, rfl⟩, rfl⟩

theorem witness_ResultRegisters :
    ActiveIs (machine worn [] []) worn ∧ (1#32) ≠ 3#32 ∧ (1#32) ≠ 4#32 ∧
      (∃ t e, issueCommand 1 (machine worn [] []) = .next t ∧ ActiveIs t e) ∧
      (∃ t e, issueCommand 0 (machine worn [] []) = .next t ∧ ActiveIs t e) ∧
      Digest.powerOn ∈ State.reset.digests :=
  ⟨rfl, by decide, by decide, ⟨_, _, rfl, rfl⟩, ⟨_, _, rfl, rfl⟩, List.mem_replicate.2 ⟨Nat.succ_ne_zero _, rfl⟩⟩

/-- Different histories, the same source. -/
theorem witness_ResetErasesHistory :
    ∃ s1 s2 s3 t1 t2 t3 d3 e3,
      ActiveIs (machine worn memP1 []) worn ∧ ActiveIs (second threeStaged memP1) threeStaged ∧
      srcAddr threeStaged = srcAddr worn ∧ srcLen threeStaged = srcLen worn ∧
      exec .reset (machine worn memP1 []) = .next s1 ∧ exec .write s1 = .next s2 ∧ exec .finalize s2 = .next s3 ∧
      exec .reset (second threeStaged memP1) = .next t1 ∧ exec .write t1 = .next t2 ∧ exec .finalize t2 = .next t3 ∧
      ActiveIs s3 d3 ∧ ActiveIs t3 e3 :=
  ⟨_, _, _, _, _, _, _, _, rfl, rfl, rfl, rfl, rfl, rfl, rfl, rfl, rfl, rfl, rfl, rfl⟩

theorem sourceInSpace {d : Digest} (h : (srcAddr d).toNat + (srcLen d).toNat ≤ 2 ^ 64) : SourceInSpace d := h

theorem witness_WriteCompletes :
    ActiveIs (machine worn memP1 []) worn ∧ SourceInSpace worn ∧ SourceAdmitted memP1 worn := by
  refine ⟨rfl, sourceInSpace (by decide), ?_⟩
  have h : (srcLen worn).toNat = 7 := by decide
  intro k hk
  rw [h] at hk
  interval_cases k <;> decide

/-- The boundaries `a + n = 2^64` and `a + n = 2^64 + 1`. -/
theorem witness_sourceBoundary :
    SourceInSpace (source 0xFFFFFFFFFFFFFFFF 1) ∧ 0 < (srcLen (source 0xFFFFFFFFFFFFFFFF 2)).toNat ∧
      2 ^ 64 < (srcAddr (source 0xFFFFFFFFFFFFFFFF 2)).toNat + (srcLen (source 0xFFFFFFFFFFFFFFFF 2)).toNat :=
  ⟨sourceInSpace (by decide), by decide⟩

theorem witness_WriteRaisesSourceRange :
    ActiveIs (machine (source 0xFFFFFFFFFFFFFFFF 2) [] []) (source 0xFFFFFFFFFFFFFFFF 2) ∧
      0 < (srcLen (source 0xFFFFFFFFFFFFFFFF 2)).toNat ∧
      2 ^ 64 < (srcAddr (source 0xFFFFFFFFFFFFFFFF 2)).toNat + (srcLen (source 0xFFFFFFFFFFFFFFFF 2)).toNat :=
  ⟨rfl, witness_sourceBoundary.2⟩

/-- The last of eight bytes is refused. -/
theorem witness_WriteStuck :
    ActiveIs (machine (source 0x1000 8) memP1 []) (source 0x1000 8) ∧ SourceInSpace (source 0x1000 8) ∧
      7 < (srcLen (source 0x1000 8)).toNat ∧ memRead memP1 ((srcAddr (source 0x1000 8)).toNat + 7) = none :=
  ⟨rfl, sourceInSpace (by decide), by decide, by decide⟩

theorem witness_WriteOfNothing :
    ActiveIs (machine (source 0xFFFFFFFFFFFFFFFF 0) [] []) (source 0xFFFFFFFFFFFFFFFF 0) ∧
      srcLen (source 0xFFFFFFFFFFFFFFFF 0) = 0 := ⟨rfl, by decide⟩

/-- 95_test_vectors.md section 3.6, V-ISO: the same bytes at two addresses. -/
theorem witness_WriteReadsOnlyItsSource :
    ActiveIs (machine (source 0x1000 1) memP1 []) (source 0x1000 1) ∧
      ActiveIs (machine (source 0x2003 1) [(0x2003, 0x4e)] []) (source 0x2003 1) ∧
      { source 0x2003 1 with
        srcAddrLo := (source 0x1000 1).srcAddrLo
        srcAddrHi := (source 0x1000 1).srcAddrHi } = source 0x1000 1 ∧
      SourceInSpace (source 0x1000 1) ∧ SourceInSpace (source 0x2003 1) ∧
      (∀ k, k < (srcLen (source 0x1000 1)).toNat →
        memRead [(0x2003, 0x4e)] ((srcAddr (source 0x2003 1)).toNat + k) =
          memRead memP1 ((srcAddr (source 0x1000 1)).toNat + k)) ∧
      ∃ e, Becomes .write (machine (source 0x1000 1) memP1 []) e := by
  refine ⟨rfl, rfl, rfl, sourceInSpace (by decide), sourceInSpace (by decide), ?_, _, rfl⟩
  have h : (srcLen (source 0x1000 1)).toNat = 1 := by decide
  intro k hk
  rw [h] at hk
  interval_cases k
  decide

/-- The most that stays staged, 3 bytes and 60 more; one more byte completes the block. -/
theorem witness_DigestWriteStages : threeStaged.nbuf.val + (zeros 60).length < 64 ∧
    ¬threeStaged.nbuf.val + (zeros 61).length < 64 := by decide

theorem witness_countsAgree :
    threeStaged.CountsAgree ∧ threeStaged.len.toNat % 64 ≠ 0 ∧ fresh.CountsAgree ∧ fresh.len.toNat % 64 = 0 := by
  refine ⟨?_, ?_, ?_, ?_⟩ <;> simp [Digest.CountsAgree, threeStaged, fresh, source, Digest.powerOn]

theorem witness_FinalizeEffect :
    ActiveIs (machine threeStaged [] []) threeStaged ∧ threeStaged.CountsAgree ∧ threeStaged.len.toNat % 64 ≠ 0 :=
  ⟨rfl, witness_countsAgree.1, witness_countsAgree.2.1⟩

theorem witness_SecondFinalize :
    (∃ t e, ActiveIs (machine threeStaged [] []) threeStaged ∧ threeStaged.CountsAgree ∧
      exec .finalize (machine threeStaged [] []) = .next t ∧ ActiveIs t e) ∧
      ∃ t e, ActiveIs (machine fresh [] []) fresh ∧ fresh.CountsAgree ∧
        exec .finalize (machine fresh [] []) = .next t ∧ ActiveIs t e ∧ fresh.len.toNat % 64 = 0 :=
  ⟨⟨_, _, rfl, witness_countsAgree.1, rfl, rfl⟩, _, _, rfl, witness_countsAgree.2.2.1, rfl, rfl,
    witness_countsAgree.2.2.2⟩

theorem witness_EmptyInput :
    ActiveIs (machine worn [] []) worn ∧ ∃ t, exec .reset (machine worn [] []) = .next t := ⟨rfl, _, rfl⟩

theorem witness_ResetEffect : ActiveIs (machine worn [] []) worn := rfl

theorem witness_FinalizeKeepEffect :
    ActiveIs (machine threeStaged [] []) threeStaged ∧
      ∃ t, exec .finalizeKeep (machine threeStaged [] []) = .next t := ⟨rfl, _, rfl⟩

theorem witness_FinalizeKeepSameChecksum :
    ∃ t u e f, exec .finalize (machine threeStaged [] []) = .next t ∧
      exec .finalizeKeep (machine threeStaged [] []) = .next u ∧ ActiveIs t e ∧ ActiveIs u f :=
  ⟨_, _, _, _, rfl, rfl, rfl, rfl⟩

/-- Three writes, one of them empty, on an instance with stale bytes in BUF; a RESET, and a power-on. -/
theorem witness_ChecksumOfStream :
    (∃ t e, exec .reset (machine worn [] []) = .next t ∧ ActiveIs t e) ∧
      (∃ t e, (machine worn [] [.powerOn [20] true]).pending = .powerOn [20] true :: [] ∧
        step (machine worn [] [.powerOn [20] true]) = .next t ∧ t.digests[0]? = some e) ∧
      Digest.powerOn ∈ State.reset.digests ∧
      let e : Digest := { Digest.powerOn with buf := staged 3 0x61, rv := true }
      ActiveIs (machine e [] []) e ∧ SameStream e Digest.powerOn ∧
        ∃ u, u = withActive (machine e [] []) ([[0x11], [], [0x22, 0x33]].foldl digestWrite e) :=
  ⟨⟨_, _, rfl, rfl⟩, ⟨_, _, rfl, rfl, rfl⟩, List.mem_replicate.2 ⟨Nat.succ_ne_zero _, rfl⟩, rfl, ⟨rfl, rfl, rfl, rfl⟩,
    _, rfl⟩

theorem witness_BlockByChunks :
    (zeros 64).length = 64 ∧ (zeros 128).length % 64 = 0 ∧ (zeros 0).length % 64 = 0 ∧ (zeros 63).length % 64 ≠ 0 ∧
      (zeros 65).length % 64 ≠ 0 := by simp

theorem witness_BlockComposes : (zeros 64).length % 64 = 0 ∧ (zeros 128).length % 64 = 0 := by simp

/-- Lane 3, the last byte the length reaches and the first it does not. -/
theorem witness_LengthInjection : 3 < 4 ∧ 7 < 8 ∧ 7 < 16 ∧ ¬8 < 8 ∧ 8 < 16 ∧ 15 < 16 := by decide

/-- 95_test_vectors.md section 3.5: byte 16 changed, and byte 63 changed. -/
theorem witness_ChecksumIgnoresOtherLanes :
    (zeros 64).length = ((zeros 64).set 16 1).length ∧
      (∀ k, k % 64 < 16 → (zeros 64)[k]? = ((zeros 64).set 16 1)[k]?) ∧
      ∀ k, k % 64 < 16 → (zeros 64)[k]? = ((zeros 64).set 63 0xff)[k]? := by
  refine ⟨by simp, fun k hk => ?_, fun k hk => ?_⟩
  · rw [List.getElem?_set_ne (by omega)]
  · rw [List.getElem?_set_ne (by omega)]

/-- No match, and a match in second place. -/
theorem witness_SelectFirstMatch :
    (∀ e, e ∈ [backendA] → e.cap ∉ [20]) ∧ [backendA, backendB] = [backendA] ++ backendB :: [] ∧
      backendB.cap ∈ [20] := by
  simp [backendA, backendB]

theorem witness_BackendImmutable :
    (∃ t, step (machine worn [] [sw 0 .backendId 1]) = .next t) ∧ NotPowerOn (machine worn [] [sw 0 .backendId 1]) ∧
      (machine worn [] [.powerOn [20] true]).pending = .powerOn [20] true :: [] ∧
      ∃ t, step (machine worn [] [.powerOn [20] true]) = .next t :=
  ⟨⟨_, rfl⟩, witness_notPowerOn _ _ _ _, rfl, _, rfl⟩

theorem witness_BackendIndependence :
    (∃ t, exec .finalize (machine threeStaged [] []) = .next t) ∧
      (∃ t, issueCommand 0 (machine threeStaged [] []) = .next t) ∧ Reg.status ≠ .backendId :=
  ⟨⟨_, rfl⟩, ⟨_, rfl⟩, by decide⟩

theorem witness_IllegalWord :
    ActiveIs (machine fresh [] []) fresh ∧ 0x00000101#32 ≠ 0x00000001#32 ∧ 0x00000101#32 ≠ 0x00000002#32 ∧
      0x00000101#32 ≠ 0x00000003#32 ∧ 0x00000101#32 ≠ 0x00000004#32 := ⟨rfl, by decide⟩

theorem witness_CoreRaisesNothing : Instr.finalize ≠ .write ∧ ActiveIs (machine worn [] []) worn := ⟨by decide, rfl⟩

/-- FINALIZE with both sticky bits set; and the word 1 written to SRC_LEN_LO, and RESET of the other instance. -/
theorem witness_StickyUntilReset :
    worn.ill = true ∧ worn.range = true ∧
      ∀ x ∈ [sw 0 .cmd 3, sw 0 .srcLenLo 1, sw 1 .cmd 1],
        NotPowerOn (machine worn [] [x]) ∧
          (∃ t e, step (machine worn [] [x]) = .next t ∧ t.digests[0]? = some e) ∧
          ∀ a rest, (machine worn [] [x]).pending = .access a :: rest →
            ¬(routeTarget Config.instBase Config.numInstances a.target = some (0, 0x00) ∧
              a.op = .write 0x00000001#32) := by
  refine ⟨rfl, rfl, fun x hx => ?_⟩
  simp only [List.mem_cons, List.not_mem_nil, or_false] at hx
  rcases hx with rfl | rfl | rfl <;> refine ⟨witness_notPowerOn _ _ _ _, ⟨_, _, rfl, rfl⟩, fun a rest h => ?_⟩ <;>
    · obtain ⟨h, -⟩ := List.cons.inj h
      injection h with h
      rw [← h]
      simp [routeTarget, regOffset]

theorem witness_FaultLogOnlyGrows :
    (machine worn [] [.powerOn [] true]).digests[0]? = some worn ∧
      ∃ t, step (machine worn [] [.powerOn [] true]) = .next t := ⟨rfl, _, rfl⟩

theorem witness_CommandFrame :
    ∃ t e, exec .write (second threeStaged memP1) = .next t ∧ ActiveIs (second threeStaged memP1) threeStaged ∧
      ActiveIs t e ∧ SourceInSpace threeStaged := ⟨_, _, rfl, rfl, rfl, sourceInSpace (by decide)⟩

/-- The same instance in different places, beside different neighbours. -/
theorem witness_InstancesIsolated :
    ActiveIs (machine threeStaged memP1 []) threeStaged ∧ ActiveIs (second threeStaged memP1) threeStaged ∧
      (second threeStaged memP1).mem = (machine threeStaged memP1 []).mem ∧ 1 ≠ (machine threeStaged memP1 []).active ∧
      ∃ e, Becomes .write (machine threeStaged memP1 []) e := ⟨rfl, rfl, rfl, by decide, _, rfl⟩

theorem witness_InstancesCommute :
    0 ≠ 1 ∧ ∃ s1 s2, exec .write { machine worn memP1 [] with active := 0 } = .next s1 ∧
      exec .finalize { s1 with active := 1 } = .next s2 := ⟨by decide, _, _, rfl, rfl⟩

theorem witness_IdleKeepsState :
    (machine worn [] []).pending = [] ∧
      (machine worn [] [sw 1 .srcLenLo 4]).pending = .access ⟨.window 1 0x10, 32, .write 4⟩ :: [] ∧
      (∃ t, step (machine worn [] [sw 1 .srcLenLo 4]) = .next t) ∧
      routeTarget Config.instBase Config.numInstances (.window 1 0x10) = some (1, 0x10) ∧ 0 ≠ 1 :=
  ⟨rfl, rfl, ⟨_, rfl⟩, rfl, by decide⟩

theorem witness_PowerOnValues : Digest.powerOn ∈ State.reset.digests :=
  List.mem_replicate.2 ⟨Nat.succ_ne_zero _, rfl⟩

theorem witness_PowerOnEvent :
    (machine worn memP1 [.powerOn [20] true]).pending = .powerOn [20] true :: [] ∧
      (machine worn memP1 [.powerOn [20] true]).digests[0]? = some worn := ⟨rfl, rfl⟩

theorem witness_InvariantKept :
    (machine worn memP1 [sw 0 .cmd 2]).Inv ∧ ∃ t, step (machine worn memP1 [sw 0 .cmd 2]) = .next t := by
  refine ⟨⟨by decide, by decide, ?_⟩, _, rfl⟩
  have hf : fresh.Inv :=
    ⟨witness_countsAgree.2.2.1, ⟨fun h => (nomatch h), fun h => (nomatch h)⟩, fun _ h => (nomatch h)⟩
  have hw : worn.Inv := by
    refine ⟨witness_countsAgree.2.2.1, ⟨fun _ => ⟨0, .head _⟩, fun _ => ⟨_, _, .tail _ (.head _)⟩⟩, fun r h => ?_⟩
    rcases List.mem_cons.1 h with rfl | h
    · intro i
      cases i <;> decide
    · obtain rfl := List.mem_singleton.1 h
      exact ⟨by decide, by decide⟩
  intro d hd
  rcases List.mem_cons.1 hd with rfl | hd
  · exact hw
  · obtain rfl := List.mem_singleton.1 hd
    exact hf

/-- The store reaches the last byte of host memory; and one into the source range of a WRITE that is stuck (log entry 28). -/
theorem witness_HostStore :
    (machine fresh [] [.memWrite 0xFFFFFFFFFFFFFFFF [7]]).pending = .memWrite 0xFFFFFFFFFFFFFFFF [7] :: [] ∧
      (0xFFFFFFFFFFFFFFFF#64).toNat + ([7] : List Byte).length ≤ 2 ^ 64 ∧
      (machine { source 0x1000 8 with stuck := true } memP1 [.memWrite 0x1000 [7]]).pending = .memWrite 0x1000 [7] :: [] ∧
      (0x1000#64).toNat + ([7] : List Byte).length ≤ 2 ^ 64 := ⟨rfl, by decide, rfl, by decide⟩

/-- The last of eight source bytes is refused; a read of STATUS of an instance that is stuck, the last offset of its window. -/
theorem witness_StuckInstanceAlone :
    WritesAt (machine (source 0x1000 8) memP1 [sw 0 .cmd 2]) 0 0x00 0x00000002#32 (source 0x1000 8) [] ∧
      SourceInSpace (source 0x1000 8) ∧ 7 < (srcLen (source 0x1000 8)).toNat ∧
      memRead memP1 ((srcAddr (source 0x1000 8)).toNat + 7) = none ∧
      (let d : Digest := { worn with stuck := true }
      (machine d [] [lw 0 .status]).pending = .access ⟨.window 0 0x04, 32, .read⟩ :: [] ∧
        (machine d [] [lw 0 .status]).digests[0]? = some d ∧ d.stuck = true) ∧
      0x3C ≤ 0x3F ∧ 0x3C % 4 = 0 :=
  ⟨⟨rfl, rfl, rfl⟩, sourceInSpace (by decide), by decide, by decide, ⟨rfl, rfl, rfl⟩, by decide⟩

/-- Instance 1 runs FINALIZE beside an instance 0 that is stuck. -/
theorem witness_InstancesIndependent :
    0 ≠ 1 ∧ (machine { worn with stuck := true } [] [sw 1 .cmd 3]).pending =
      .access ⟨.window 1 0x00, 32, .write 3⟩ :: [] ∧
      ∃ t, step (machine { worn with stuck := true } [] [sw 1 .cmd 3]) = .next t := ⟨by decide, rfl, _, rfl⟩

end Witnesses

end Sys2Proof.Tests
end

section
/-! SUPPORT. What one command makes of the active digest, as a function of that digest and host memory alone, and what
the window of a digest answers to a read and to a write that has no effect. -/

namespace Sys2Proof.Machine

open Sys2Proof.Claims

section ActiveDigest

variable {s t : State} {c : Instr} {d e : Digest}

theorem activeIs_setActive (hd : ActiveIs s d) (e : Digest) : ActiveIs (s.setActive e) e :=
  setActive_getElem?_self (List.getElem?_eq_some_iff.1 hd).1

theorem activeIs_unique (hd : ActiveIs s d) (he : ActiveIs s e) : d = e := Option.some.inj (hd.symm.trans he)

/-- What command `c` makes of a digest: no argument tells it of another digest. -/
def commandOn (c : Instr) (mem : Memory) (d : Digest) : Host.Outcome Digest Fault Refusal :=
  match c with
  | .reset => .next (resetDigest d)
  | .write => writeCommand mem d
  | .finalize => .next (finalizeDigest Config.finWriteback d)
  | .finalizeKeep => .next (finalizeKeepDigest d)

theorem exec_eq_onActive (c : Instr) (s : State) : exec c s = onActive s (commandOn c s.mem) := by
  cases c <;> rfl

/-- A command completes as what it makes of the active digest. -/
theorem becomes_iff (hd : ActiveIs s d) : Becomes c s e ↔ commandOn c s.mem d = .next e := by
  unfold Becomes
  rw [exec_eq_onActive]
  constructor
  · intro h
    obtain ⟨d₀, d', hd₀, hrun, hset⟩ := onActive_eq_next.1 h
    obtain rfl := activeIs_unique hd hd₀
    have he : ActiveIs (s.setActive d') e := hset ▸ activeIs_setActive hd e
    rw [hrun, activeIs_unique (activeIs_setActive hd d') he]
  · exact onActive_of_some hd _

theorem issueCommand_encode (c : Instr) (s : State) : issueCommand (encode c) s = exec c s := by
  cases c <;> rfl

/-- The active digest before and after an issued word. -/
theorem issueCommand_move {w : Word} (h : issueCommand w s = .next t) (hd : ActiveIs s d) (he : ActiveIs t e) :
    DigestMove s.mem w d e := by
  obtain ⟨d₀, d', hd₀, hmove, rfl⟩ := issueCommand_cases h
  obtain rfl := activeIs_unique hd hd₀
  obtain rfl := activeIs_unique (activeIs_setActive hd d') he
  exact hmove

theorem exec_move (h : exec c s = .next t) (hd : ActiveIs s d) (he : ActiveIs t e) :
    DigestMove s.mem (encode c) d e :=
  issueCommand_move (issueCommand_encode c s ▸ h) hd he

/-- A command keeps every digest but the active one (R28). -/
theorem exec_getElem?_other (h : exec c s = .next t) {j : Nat} (hj : j ≠ s.active) : t.digests[j]? = s.digests[j]? := by
  obtain ⟨_, _, _, _, rfl⟩ := exec_cases h
  exact setActive_getElem?_other hj

end ActiveDigest

section Window

variable {s : State} {i : Nat} {d : Digest} {rest : List HostEvent} {r : Reg} {w : Word}

theorem regOffset_lt (r : Reg) : regOffset r < 0x40 := by
  cases r with
  | result k | reserved k => simp only [regOffset]; omega
  | _ => decide

theorem regOfOffset_regOffset (r : Reg) : regOfOffset (regOffset r) = some r := by
  cases r with
  | result k | reserved k => fin_cases k <;> rfl
  | _ => rfl

/-- A read of a register of a digest that is not stuck is served (R100). -/
theorem serveWindow_read (hd : s.digests[i]? = some d) (hs : d.stuck = false) :
    serveWindow .read i (regOffset r) s = serveRead r d { s with active := i } := by
  simp [serveWindow, hd, hs, Nat.not_le.2 (regOffset_lt r), regOfOffset_regOffset]

/-- A write to a register of a digest that is not stuck is served (R100). -/
theorem serveWindow_write (hd : s.digests[i]? = some d) (hs : d.stuck = false) :
    serveWindow (.write w) i (regOffset r) s =
      settleWrite (regOffset r) w d { s with active := i } (serveWrite r w d { s with active := i }) := by
  simp [serveWindow, hd, hs, Nat.not_le.2 (regOffset_lt r), regOfOffset_regOffset]

theorem step_access_window (op : BusOp) (hp : s.pending = .access ⟨.window i (regOffset r), 32, op⟩ :: rest) :
    step s = serveWindow op i (regOffset r) { s with pending := rest } := by
  simp [step, hp, serveEvent, serveAccess, routeTarget]

/-- A read completes and gives what the register reads as (R101). -/
theorem gives_readReg (h : ReadsAt s i (regOffset r) d rest) : Gives s i rest (readReg s.backend d r) := by
  obtain ⟨hp, hd, hs⟩ := h
  exact (step_access_window .read hp).trans (serveWindow_read hd hs)

theorem gives_unique {x y : Reply} (hx : Gives s i rest x) (hy : Gives s i rest y) : x = y := by
  have h := hx.symm.trans hy
  injection h with h
  simpa using congrArg State.replies h

theorem serveWrite_of_ne_cmd (hr : r ≠ .cmd) (w : Word) (d : Digest) (s : State) :
    serveWrite r w d s = .next (s.setActive (writeReg d r w)) := by
  cases r with
  | cmd => exact absurd rfl hr
  | _ => rfl

/-- A write to a register other than CMD completes and stores what the register takes (R102). -/
theorem stores_writeReg (h : WritesAt s i (regOffset r) w d rest) (hr : r ≠ .cmd) :
    Stores s i rest (writeReg d r w) := by
  obtain ⟨hp, hd, hs⟩ := h
  rw [Stores, step_access_window (.write w) hp, serveWindow_write (s := { s with pending := rest }) hd hs,
    serveWrite_of_ne_cmd hr]
  rfl

/-- A write that a register ignores has no effect but to be served (R102). -/
theorem step_write_ignored (h : WritesAt s i (regOffset r) w d rest) (hr : r ≠ .cmd) (hw : writeReg d r w = d) :
    step s = .next (serving s i rest) := by
  have hst := stores_writeReg h hr
  obtain ⟨-, hd, -⟩ := h
  obtain ⟨hi, rfl⟩ := List.getElem?_eq_some_iff.1 hd
  rwa [hw, Stores, List.set_getElem_self hi] at hst

end Window

end Sys2Proof.Machine
end

section
/-! SUPPORT. The SRC registers and the RESULT registers under the commands (10_state.md rules R32 and R36). -/

namespace Sys2Proof.Machine

/-- Two words side by side, as a number: `HI << 32 | LO`. -/
theorem toNat_append_word (hi lo : Word) : (hi ++ lo).toNat = hi.toNat * 2 ^ 32 + lo.toNat := by
  rw [BitVec.toNat_append, ← Nat.shiftLeft_add_eq_or_of_lt lo.isLt, Nat.shiftLeft_eq]

section SourceRegisters

variable {d e : Digest} (al ah ll lh : Word)

/-- The four SRC registers of `e` hold what those of `d` hold. -/
def KeepsSource (d e : Digest) : Prop :=
  e.srcAddrLo = d.srcAddrLo ∧ e.srcAddrHi = d.srcAddrHi ∧ e.srcLenLo = d.srcLenLo ∧ e.srcLenHi = d.srcLenHi

/-- `d` with other words in its SRC registers. -/
def Digest.withSource (d : Digest) (al ah ll lh : Word) : Digest :=
  { d with srcAddrLo := al, srcAddrHi := ah, srcLenLo := ll, srcLenHi := lh }

theorem SameInterface.symm (h : SameInterface d e) : SameInterface e d := by
  obtain ⟨hrv, hill, hrange, hal, hah, hll, hlh, hres, hlog, hstuck⟩ := h
  exact ⟨hrv.symm, hill.symm, hrange.symm, hal.symm, hah.symm, hll.symm, hlh.symm, hres.symm, hlog.symm, hstuck.symm⟩

theorem SameInterface.keepsSource (h : SameInterface d e) : KeepsSource d e := by
  obtain ⟨-, -, -, hal, hah, hll, hlh, -⟩ := h
  exact ⟨hal.symm, hah.symm, hll.symm, hlh.symm⟩

theorem SameInterface.result_rv (h : SameInterface d e) : e.result = d.result ∧ e.rv = d.rv := by
  obtain ⟨hrv, -, -, -, -, -, -, hres, -⟩ := h
  exact ⟨hres.symm, hrv.symm⟩

theorem finalizeDigest_keepsSource (wb : Bool) (d : Digest) : KeepsSource d (finalizeDigest wb d) := by
  have h := (padDigest_interface d).keepsSource
  cases wb <;> exact h

theorem finalizeKeepDigest_keepsSource (d : Digest) : KeepsSource d (finalizeKeepDigest d) :=
  (padDigest_interface d).keepsSource

/-- No word issued modifies the SRC registers (R32). -/
theorem DigestMove.keepsSource {mem : Memory} {w : Word} (h : DigestMove mem w d e) : KeepsSource d e := by
  cases h with
  | reset => exact ⟨rfl, rfl, rfl, rfl⟩
  | write _ p => exact (digestWrite_interface d p).keepsSource
  | sourceRange | illegal => simp [KeepsSource]
  | finalize => exact finalizeDigest_keepsSource _ d
  | finalizeKeep => exact finalizeKeepDigest_keepsSource d

theorem withSource_eq_withInterfaceOf (d : Digest) :
    d.withSource al ah ll lh = d.withInterfaceOf (d.withSource al ah ll lh) := rfl

/-- Padding neither reads nor writes the SRC registers: it reads nothing of the interface. -/
theorem padDigest_withSource (d : Digest) :
    padDigest (d.withSource al ah ll lh) = (padDigest d).withSource al ah ll lh :=
  calc padDigest (d.withSource al ah ll lh)
    _ = padDigest (d.withInterfaceOf (d.withSource al ah ll lh)) :=
      congrArg padDigest (withSource_eq_withInterfaceOf al ah ll lh d)
    _ = (padDigest d).withInterfaceOf (d.withSource al ah ll lh) := padDigest_withInterfaceOf d _
    _ = ((padDigest d).withInterfaceOf d).withSource al ah ll lh := rfl
    _ = (padDigest d).withSource al ah ll lh := by rw [withInterfaceOf_eq (padDigest_interface d).symm]

theorem finalTransform_withSource (d : Digest) : finalTransform (d.withSource al ah ll lh) = finalTransform d := by
  rw [finalTransform, padDigest_withSource]
  rfl

theorem finalizeDigest_withSource (wb : Bool) (d : Digest) :
    finalizeDigest wb (d.withSource al ah ll lh) = (finalizeDigest wb d).withSource al ah ll lh := by
  simp only [finalizeDigest, padDigest_withSource, finalTransform_withSource]
  cases wb <;> rfl

theorem finalizeKeepDigest_withSource (d : Digest) :
    finalizeKeepDigest (d.withSource al ah ll lh) = (finalizeKeepDigest d).withSource al ah ll lh := by
  simp only [finalizeKeepDigest, padDigest_withSource, finalTransform_withSource]
  rfl

/-- Every command but WRITE does the same whatever the SRC registers hold (R32). -/
theorem commandOn_withSource {c : Instr} {mem : Memory} (hc : c ≠ .write) (h : commandOn c mem d = .next e) :
    commandOn c mem (d.withSource al ah ll lh) = .next (e.withSource al ah ll lh) := by
  cases c with
  | write => exact absurd rfl hc
  | reset =>
    injection h with h
    exact h ▸ rfl
  | finalize =>
    injection h with h
    exact h ▸ congrArg _ (finalizeDigest_withSource al ah ll lh _ d)
  | finalizeKeep =>
    injection h with h
    exact h ▸ congrArg _ (finalizeKeepDigest_withSource al ah ll lh d)

end SourceRegisters

section ResultRegisters

open Sys2Proof.Claims

variable {d e : Digest}

/-- The word of four bytes, each shifted to its place (R11). Bit `j` of either side is a bit of byte `j / 8`: the other three terms
of the disjunction are zero there. -/
theorem wordLE_eq_or (b0 b1 b2 b3 : Byte) : wordLE b0 b1 b2 b3 =
    (b0.setWidth 32 ||| b1.setWidth 32 <<< 8 ||| b2.setWidth 32 <<< 16 ||| b3.setWidth 32 <<< 24) := by
  apply BitVec.eq_of_getLsbD_eq
  intro j hj
  simp only [wordLE, BitVec.getLsbD_append, BitVec.getLsbD_or, BitVec.getLsbD_shiftLeft, BitVec.getLsbD_setWidth, hj]
  grind

/-- FINALIZE and FINALIZE.KEEP deliver the one checksum of R124 (R127, R130). -/
theorem commandOn_delivers {c : Instr} (hc : c = .finalize ∨ c = .finalizeKeep) (mem : Memory) (d : Digest) :
    ∃ e, commandOn c mem d = .next (deliverResult (finalLane d) e) := by
  rcases hc with rfl | rfl
  · exact ⟨_, rfl⟩
  · exact ⟨_, rfl⟩

/-- A word that is neither FINALIZE nor FINALIZE.KEEP leaves RESULT and RV alone (R36). -/
theorem DigestMove.result_rv {mem : Memory} {w : Word} (h : DigestMove mem w d e) (h3 : w ≠ encode .finalize)
    (h4 : w ≠ encode .finalizeKeep) : e.result = d.result ∧ e.rv = d.rv := by
  cases h with
  | reset => exact ⟨rfl, rfl⟩
  | write _ p => exact (digestWrite_interface d p).result_rv
  | sourceRange | illegal => simp
  | finalize word => exact absurd word h3
  | finalizeKeep word => exact absurd word h4

end ResultRegisters

end Sys2Proof.Machine
end

section
/-! The statements of 10_state.md. -/

namespace Sys2Proof.Proofs

open Sys2Proof.Machine Sys2Proof.Claims

/-- Settles O10: the halves are joined, no move of a digest writes them, and padding does not read them. -/
theorem sourceRegisters : Obligations.SourceRegisters := by
  refine ⟨fun d => ⟨toNat_append_word _ _, toNat_append_word _ _⟩, fun b d w => ⟨rfl, rfl, rfl, rfl⟩, ?_, ?_⟩
  · intro c s t d e h hd he
    exact (exec_move h hd he).keepsSource
  · intro c s d e al ah ll lh hc hd h
    have hrun := (becomes_iff hd).1 h
    exact (becomes_iff (activeIs_setActive hd _)).2 (commandOn_withSource al ah ll lh hc hrun)

/-- Settles O15: the two finalize commands deliver R124's checksum, and no other move of a digest writes RESULT or RV. -/
theorem resultRegisters : Obligations.ResultRegisters := by
  refine ⟨?_, ?_, ?_, ?_, ?_⟩
  · intro c s d hc hd
    obtain ⟨e, he⟩ := commandOn_delivers hc s.mem d
    refine ⟨_, (becomes_iff hd).2 he, rfl, fun k => ?_⟩
    simp [resultWords, wordLE_eq_or]
  · intro w s t d e h3 h4 h hd he
    exact (issueCommand_move h hd he).result_rv h3 h4
  · intro d hd
    obtain rfl := List.eq_of_mem_replicate hd
    rfl
  · intro s i w d rest k h
    exact step_write_ignored (r := .result k) h nofun rfl
  · intro s i d rest k h
    have hread := gives_readReg (r := .result k) h
    constructor
    · intro hrv
      rwa [readReg_result_valid _ hrv] at hread
    · intro hrv
      rw [readReg_result_unwritten _ hrv] at hread
      exact ⟨.readFault k, nofun, hread⟩

/-- Settles O50: a command is a function of the active digest and of host memory, put in the active place. -/
theorem instancesIsolated : Obligations.InstancesIsolated := by
  refine ⟨fun c s t h j hj => exec_getElem?_other h hj, ?_⟩
  intro c s s' d e hd hd' hmem h
  have hrun := (becomes_iff hd).1 h
  exact (becomes_iff hd').2 (hmem ▸ hrun)

/-- Settles O11: the register reads as BACKEND under 24 zero bits, and BACKEND is not of a window. -/
theorem backendIdRegister : Obligations.BackendIdRegister := by
  have hread : ∀ {s i d rest}, ReadsAt s i 0x18 d rest → Replies s i rest (0#24 ++ s.backend) :=
    fun h => gives_readReg (r := .backendId) h
  refine ⟨?_, ?_, ?_⟩
  · intro s i d rest h
    exact ⟨_, BitVec.extractLsb'_append_eq_right, BitVec.extractLsb'_append_eq_left, hread h⟩
  · intro s t i j d e rest rest' w w' hs ht hb hw hw'
    have h1 : w = 0#24 ++ s.backend := by injection gives_unique hw (hread hs)
    have h2 : w' = 0#24 ++ t.backend := by injection gives_unique hw' (hread ht)
    rw [h1, h2, hb]
  · intro s i w d rest h
    exact step_write_ignored (r := .backendId) h nofun rfl

/-- Settles O12: the read gives `infoWord`, and the write is ignored. -/
theorem infoRegister : Obligations.InfoRegister :=
  ⟨fun _ _ _ _ h => gives_readReg (r := .info) h, by decide, by decide, by decide,
    fun _ _ _ _ _ h => step_write_ignored (r := .info) h nofun rfl⟩

/-- The offsets of R37 are those of the reserved registers. -/
theorem eq_regOffset_reserved {off : Nat} (h : off ∈ [0x30, 0x34, 0x38, 0x3C]) :
    ∃ k : Fin 4, off = regOffset (.reserved k) := by
  simp only [List.mem_cons, List.not_mem_nil, or_false] at h
  rcases h with rfl | rfl | rfl | rfl
  exacts [⟨0, rfl⟩, ⟨1, rfl⟩, ⟨2, rfl⟩, ⟨3, rfl⟩]

/-- Settles O13: each of the offsets is that of a reserved register, which reads as 0 and ignores writes. -/
theorem reservedRegisters : Obligations.ReservedRegisters := by
  intro off hoff
  obtain ⟨k, rfl⟩ := eq_regOffset_reserved hoff
  exact ⟨fun s i d rest h => gives_readReg h, fun s i w d rest h => step_write_ignored h nofun rfl⟩

end Sys2Proof.Proofs
end

section
/-! SUPPORT. WRITE under another source address (20_memory.md rules R52 and R57): it reads its source range alone, and
what it does with the bytes does not depend on SRC_ADDR. -/

namespace Sys2Proof.Machine

open Sys2Proof.Claims

variable {m m' : Memory} {d e : Digest} {al ah : Word}

/-- Reads of the same bytes give the same bytes, wherever they lie. -/
theorem memReadRange_congr {a a' n : Nat} (h : ∀ k, k < n → memRead m' (a' + k) = memRead m (a + k)) :
    memReadRange m' a' n = memReadRange m a n := by
  refine Option.ext fun p => ?_
  rw [memReadRange_eq_some, memReadRange_eq_some]
  refine and_congr_right fun _ => forall₂_congr fun k hk => ?_
  rw [h k hk]

/-- `d` with another SRC_ADDR. -/
def Digest.withSrcAddr (d : Digest) (al ah : Word) : Digest := { d with srcAddrLo := al, srcAddrHi := ah }

/-- A digest that agrees with `d` but for SRC_ADDR is `d` with that digest's SRC_ADDR. -/
theorem eq_withSrcAddr {d' : Digest} (h : { d' with srcAddrLo := d.srcAddrLo, srcAddrHi := d.srcAddrHi } = d) :
    d' = d.withSrcAddr d'.srcAddrLo d'.srcAddrHi :=
  congrArg (·.withSrcAddr d'.srcAddrLo d'.srcAddrHi) h

theorem withSrcAddr_eq_withInterfaceOf (d : Digest) (al ah : Word) :
    d.withSrcAddr al ah = d.withInterfaceOf (d.withSrcAddr al ah) := rfl

/-- DigestWrite neither reads nor writes SRC_ADDR: it reads nothing of the interface. -/
theorem digestWrite_withSrcAddr (d : Digest) (al ah : Word) (p : List Byte) :
    digestWrite (d.withSrcAddr al ah) p = (digestWrite d p).withSrcAddr al ah :=
  calc digestWrite (d.withSrcAddr al ah) p
    _ = digestWrite (d.withInterfaceOf (d.withSrcAddr al ah)) p :=
      congrArg (digestWrite · p) (withSrcAddr_eq_withInterfaceOf d al ah)
    _ = (digestWrite d p).withInterfaceOf (d.withSrcAddr al ah) := digestWrite_withInterfaceOf d _ p
    _ = ((digestWrite d p).withInterfaceOf d).withSrcAddr al ah := rfl
    _ = (digestWrite d p).withSrcAddr al ah := by rw [withInterfaceOf_eq (digestWrite_interface d p).symm]

/-- A WRITE whose source lies in the address space hands the bytes it reads to DigestWrite (R110). -/
theorem writeCommand_inSpace (h : SourceInSpace d) : writeCommand m d = .next e ↔
    ∃ p, memReadRange m (srcAddr d).toNat (srcLen d).toNat = some p ∧ e = digestWrite d p := by
  have hin : sourceOutOfRange (srcAddr d) (srcLen d) = false :=
    decide_eq_false fun hout => Nat.not_le.2 hout.2 h
  simp [writeCommand_eq_next, hin]

/-- WRITE of the same bytes from another address, in another memory, does the same but for SRC_ADDR (R52). -/
theorem writeCommand_withSrcAddr (hin : SourceInSpace d) (hin' : SourceInSpace (d.withSrcAddr al ah))
    (hmem : ∀ k, k < (srcLen d).toNat →
      memRead m' ((srcAddr (d.withSrcAddr al ah)).toNat + k) = memRead m ((srcAddr d).toNat + k))
    (h : writeCommand m d = .next e) : writeCommand m' (d.withSrcAddr al ah) = .next (e.withSrcAddr al ah) := by
  obtain ⟨p, hp, rfl⟩ := (writeCommand_inSpace hin).1 h
  have hp' := (memReadRange_congr hmem).trans hp
  exact (writeCommand_inSpace hin').2 ⟨p, hp', (digestWrite_withSrcAddr d al ah p).symm⟩

end Sys2Proof.Machine
end

section
/-! The statements of 20_memory.md. -/

namespace Sys2Proof.Proofs

open Sys2Proof.Machine Sys2Proof.Claims

/-- Settles O22: equal source bytes are read as one list, and DigestWrite of that list does not look at SRC_ADDR. -/
theorem writeReadsOnlyItsSource : Obligations.WriteReadsOnlyItsSource := by
  intro s s' d d' e hd hd' hagree hin hin' hmem h
  have hrun : writeCommand s.mem d = .next e := (becomes_iff hd).1 h
  have heq := eq_withSrcAddr hagree
  generalize d'.srcAddrLo = al, d'.srcAddrHi = ah at heq ⊢
  subst heq
  exact (becomes_iff hd').2 (writeCommand_withSrcAddr hin hin' hmem hrun)

end Sys2Proof.Proofs
end

section
/-! SUPPORT. The commands on the active digest: the SRC_LEN bytes a WRITE reads, the aligned and the repeated finalize, and the
words STATUS, SRC_ADDR, SRC_LEN and BACKEND_ID read as (40_digest_commands.md rules R101, R113, R120, R129 and R130). -/

namespace Sys2Proof.Machine

open Sys2Proof.Claims

section FinalizeOnDigest

variable {d : Digest}

/-- At a block boundary of LEN there is nothing to pad, so no Block runs (R124, R129). -/
theorem padDigest_of_aligned (h : d.len.toNat % 64 = 0) : padDigest d = d := if_pos h

/-- FINALIZE at a block boundary of LEN transforms STATE as it stands and changes RESULT and RV alone (R124, R126). -/
theorem finalizeDigest_of_aligned (h : d.len.toNat % 64 = 0) :
    finalizeDigest Config.finWriteback d = deliverResult (finalizeTransform d.state d.len)[0] d := by
  simp [finalizeDigest, finalTransform, padDigest_of_aligned h, Config.finWriteback]

/-- The checksum is a function of the stream side of an instance. -/
theorem checksum_withInterfaceOf (d e : Digest) : checksum (d.withInterfaceOf e) = checksum d := by
  rw [checksum, finalTransform, padDigest_withInterfaceOf]
  rfl

theorem deliverResult_eq_withInterfaceOf (c : Lane) (d : Digest) :
    deliverResult c d = d.withInterfaceOf (deliverResult c d) := rfl

/-- Delivering a result does not change the checksum to deliver next. -/
theorem checksum_deliverResult (c : Lane) (d : Digest) : checksum (deliverResult c d) = checksum d := by
  rw [deliverResult_eq_withInterfaceOf, checksum_withInterfaceOf]

/-- FINALIZE.KEEP is result delivery: padding writes the stream side alone, and that side is restored (R130). -/
theorem finalizeKeepDigest_eq (d : Digest) : finalizeKeepDigest d = deliverResult (checksum d) d :=
  congrArg (deliverResult (checksum d)) (withInterfaceOf_eq (padDigest_interface d))

/-- The first delivery changes neither the checksum nor, delivered again, the digest. -/
theorem finalizeKeepDigest_idem (d : Digest) : finalizeKeepDigest (finalizeKeepDigest d) = finalizeKeepDigest d := by
  simp only [finalizeKeepDigest_eq, checksum_deliverResult]
  rfl

end FinalizeOnDigest

section ActiveDigest

variable {s t : State} {c : Instr} {m : Memory} {d : Digest}

theorem setActive_self (hd : ActiveIs s d) : s.setActive d = s := by
  obtain ⟨hlt, rfl⟩ := List.getElem?_eq_some_iff.1 hd
  rw [State.setActive, List.set_getElem_self hlt]

/-- A command that leaves the active digest as it is leaves the machine as it is. -/
theorem exec_fixed (hd : ActiveIs s d) (h : commandOn c s.mem d = .next d) : exec c s = .next s :=
  ((becomes_iff hd).2 h).trans (congrArg Host.Outcome.next (setActive_self hd))

/-- RESET answers the machine with the active digest reset, and only that. -/
theorem eq_setActive_of_exec_reset (hd : ActiveIs s d) (h : exec .reset s = .next t) :
    t = s.setActive (resetDigest d) := by
  have hreset : Becomes .reset s (resetDigest d) := (becomes_iff hd).2 rfl
  injection h.symm.trans hreset

/-- An admitted source range is read as a list of bytes (R110). -/
theorem exists_memReadRange (h : SourceAdmitted m d) :
    ∃ p, memReadRange m (srcAddr d).toNat (srcLen d).toNat = some p := by
  refine Option.ne_none_iff_exists'.1 fun hnone => ?_
  obtain ⟨k, hk, hrefused⟩ := memReadRange_eq_none.1 hnone
  simpa [hrefused] using h k hk

end ActiveDigest

section RegisterWords

variable (d : Digest)

/-- STATUS as the disjunction of its shifted bits: one check for each of the eight values of the three bits (R33, R101). -/
theorem statusWord_eq_or : statusWord d =
    ((BitVec.ofBool d.range).setWidth 32 <<< 2 ||| (BitVec.ofBool d.ill).setWidth 32 <<< 1 |||
      (BitVec.ofBool d.rv).setWidth 32) := by
  have hbits : ∀ range ill rv : Bool,
      0#29 ++ BitVec.ofBool range ++ BitVec.ofBool ill ++ BitVec.ofBool rv =
        ((BitVec.ofBool range).setWidth 32 <<< 2 ||| (BitVec.ofBool ill).setWidth 32 <<< 1 |||
          (BitVec.ofBool rv).setWidth 32) := by decide
  exact hbits d.range d.ill d.rv

theorem srcAddr_low : (srcAddr d).extractLsb' 0 32 = d.srcAddrLo := BitVec.extractLsb'_append_eq_right

theorem srcAddr_high : (srcAddr d).extractLsb' 32 32 = d.srcAddrHi := BitVec.extractLsb'_append_eq_left

theorem srcLen_low : (srcLen d).extractLsb' 0 32 = d.srcLenLo := BitVec.extractLsb'_append_eq_right

theorem srcLen_high : (srcLen d).extractLsb' 32 32 = d.srcLenHi := BitVec.extractLsb'_append_eq_left

theorem setWidth_byte (b : Byte) : b.setWidth 32 = 0#24 ++ b := BitVec.setWidth_eq_append (by decide)

end RegisterWords

end Sys2Proof.Machine
end

section
/-! The statements of 40_digest_commands.md: the register reads, and the four commands on an instance. -/

namespace Sys2Proof.Proofs

open Sys2Proof.Machine Sys2Proof.Claims

/-- Settles O18: an admitted range is read whole, and DigestWrite counts the bytes it is handed. -/
theorem writeCompletes : Obligations.WriteCompletes := by
  intro s d hd hin hadmitted
  obtain ⟨p, hp⟩ := exists_memReadRange hadmitted
  obtain ⟨hlen, hbytes⟩ := memReadRange_eq_some.1 hp
  have hrun : commandOn .write s.mem d = .next (digestWrite d p) := (writeCommand_inSpace hin).2 ⟨p, hp, rfl⟩
  refine ⟨p, hlen, fun k hk => (hbytes k hk).1, (becomes_iff hd).2 hrun, ?_⟩
  rw [digestWrite_len, hlen, BitVec.ofNat_toNat, BitVec.setWidth_eq]

/-- Settles O28: RESET leaves LEN = 0, a block boundary, so FINALIZE pads nothing and transforms the initial STATE. -/
theorem emptyInput : Obligations.EmptyInput := by
  intro s t d hd h
  obtain rfl := eq_setActive_of_exec_reset hd h
  have he := activeIs_setActive hd (resetDigest d)
  have hrun := finalizeDigest_of_aligned (d := resetDigest d) rfl
  exact ⟨resetDigest d, he, (becomes_iff he).2 (congrArg Host.Outcome.next hrun)⟩

/-- Settles O29: FINALIZE.KEEP is result delivery of a checksum that does not depend on the result delivered before. -/
theorem finalizeKeepEffect : Obligations.FinalizeKeepEffect := by
  refine ⟨rfl, ?_, ?_⟩
  · intro s d hd
    exact (becomes_iff hd).2 (congrArg Host.Outcome.next (finalizeKeepDigest_eq d))
  · intro s t h
    obtain ⟨d, e, hd, hrun, rfl⟩ := onActive_eq_next.1 ((exec_finalizeKeep s).symm.trans h)
    injection hrun with hrun
    subst hrun
    have hrepeat : commandOn .finalizeKeep s.mem (finalizeKeepDigest d) = .next (finalizeKeepDigest d) :=
      congrArg Host.Outcome.next (finalizeKeepDigest_idem d)
    exact exec_fixed (activeIs_setActive hd _) hrepeat

/-- Settles O7: each offset is that of a register, and the read gives what the register reads as. -/
theorem registerReads : Obligations.RegisterReads := by
  intro s i off d rest h
  have hread : ∀ {r : Reg}, off = regOffset r → Gives s i rest (readReg s.backend d r) :=
    fun hoff => gives_readReg (hoff ▸ h)
  obtain ⟨-, -, -, -, hresult⟩ := resultRegisters
  rw [← statusWord_eq_or, srcAddr_low, srcAddr_high, srcLen_low, srcLen_high, setWidth_byte]
  exact ⟨hread (r := .cmd), hread (r := .status), hread (r := .srcAddrLo), hread (r := .srcAddrHi),
    hread (r := .srcLenLo), hread (r := .srcLenHi), hread (r := .backendId), hread (r := .info),
    fun k hoff => (hresult s i d rest k (hoff ▸ h)).1, fun k hoff => (hresult s i d rest k (hoff ▸ h)).2,
    fun k => hread (r := .reserved k)⟩

/-- Settles O16: RESET is `resetDigest`, whose STATE is the four lanes the statement writes out. -/
theorem resetEffect : Obligations.ResetEffect :=
  ⟨rfl, fun _ _ hd => (becomes_iff hd).2 rfl⟩

end Sys2Proof.Proofs
end

section
/-! SUPPORT. The transform's parts (41_transform.md rules R142, R145, R155 and R156): how the S-box table's affine step is
undone, the bytes of the length lane, the round on lanes of equal bytes, and the lanes the mixing schedule leaves. -/

namespace Sys2Proof.Machine

section SboxTable

/-- Undoes the affine step of R142: the byte `b` whose XOR with its four rotations and 0x63 is `s`. -/
def affineInverse (s : Byte) : Byte := s.rotateLeft 1 ^^^ s.rotateLeft 3 ^^^ s.rotateLeft 6 ^^^ 0x05#8

theorem affine_affineInverse : ∀ s : Byte,
    s = affineInverse s ^^^ (affineInverse s).rotateLeft 1 ^^^ (affineInverse s).rotateLeft 2 ^^^
      (affineInverse s).rotateLeft 3 ^^^ (affineInverse s).rotateLeft 4 ^^^ 0x63#8 := by decide +kernel

/-- The table, with the affine step undone, lists the inverses in GF(2^8): one product for each of its entries. -/
theorem gfMul_affineInverse_sbox : ∀ a : Byte, a ≠ 0 → gfMul a (affineInverse (sbox a)) = 1 := by decide +kernel

theorem affineInverse_sbox_zero : affineInverse (sbox 0) = 0 := by decide

end SboxTable

section LengthLane

variable (L : DWord) {j : Nat}

theorem lengthLane_getElem_low (hj : j < 8) : (lengthLane L)[j] = dwordByte L j := by
  rw [lengthLane, laneOfList_getElem, List.getD_append _ _ _ _ (by simpa using hj)]
  simp [le64, hj]

theorem lengthLane_getElem_high (hj : j < 16) (h : ¬j < 8) : (lengthLane L)[j] = 0 := by
  rw [lengthLane, laneOfList_getElem, List.getD_append_right _ _ _ _ (by simpa using h), le64_length]
  exact List.getD_replicate 0 (by omega)

theorem lengthLane_zero : lengthLane 0 = Vector.replicate 16 0 := by decide

theorem injectLength_zero (S : DigestState) : injectLength S 0 = S := by
  ext1 i hi
  rw [injectLength_getElem, lengthLane_zero, xorLane_zero]

end LengthLane

section UniformLanes

variable (u v : Byte)

/-- The coefficients 2, 3, 1 and 1 of a row of MixColumns add up to 1. -/
theorem mixRow_uniform (r : Nat) : mixRow r v v v v = v := by
  unfold mixRow mulBy3
  split <;> simp [BitVec.xor_comm (xtime v)]

theorem keylessRound_replicate : keylessRound (Vector.replicate 16 v) = Vector.replicate 16 (sbox v) := by
  ext1 j hj
  simp [keylessRound, mixColumns, shiftRows, mixRow_uniform]

theorem aesRound_replicate :
    aesRound (Vector.replicate 16 u) (Vector.replicate 16 v) = Vector.replicate 16 (sbox v ^^^ u) := by
  ext1 j hj
  simp [aesRound, keylessRound_replicate]

end UniformLanes

/-- The lanes the schedule leaves, in terms of the lanes it is given. Steps 2 and 3 are both keyed by lane 1 from step 1. -/
theorem mixSchedule_eq (S : DigestState) :
    mixSchedule S = #v[selfRound (selfRound (selfRound S[0])), aesRound (aesRound S[1] S[0]) S[0], S[2],
      aesRound (aesRound S[1] S[0]) S[2]] := by
  ext1 i hi
  match i with
  | 0 => exact mixSchedule_lane0 S
  | 1 | 2 | 3 => simp [mixSchedule]

end Sys2Proof.Machine
end

section
/-! The statements of 41_transform.md: the S-box table, the length injection and the mixing schedule. -/

namespace Sys2Proof.Proofs

open Sys2Proof.Machine

/-- Settles O32: `b` is the table's entry with the affine step undone. -/
theorem sboxIsAlgebraic : Obligations.SboxIsAlgebraic :=
  ⟨fun a => ⟨affineInverse (sbox a), fun h => h ▸ affineInverse_sbox_zero, gfMul_affineInverse_sbox a,
    affine_affineInverse (sbox a)⟩, rfl⟩

/-- Settles O38: byte `j` of the length lane is byte `j` of LE64 below 8 and zero from 8 on. -/
theorem lengthInjection : Obligations.LengthInjection := by
  intro S L i hi j hj
  rw [injectLength_getElem, xorLane_getElem]
  split
  next hlow => rw [lengthLane_getElem_low L hlow, dwordByte]
  next hhigh => rw [lengthLane_getElem_high L hj hhigh]; exact BitVec.xor_zero

/-- Settles O39: the schedule's closing lanes are the six rounds, and on zero lanes every round meets lanes of equal bytes. -/
theorem mixingSchedule : Obligations.MixingSchedule := by
  constructor
  · intro S L
    exact ⟨_, _, _, _, _, _, rfl, rfl, rfl, rfl, rfl, rfl, mixSchedule_eq (injectLength S L)⟩
  · rw [finalizeTransform, injectLength_zero, mixSchedule_eq]
    simp only [selfRound, Vector.getElem_replicate, aesRound_replicate]
    rfl

end Sys2Proof.Proofs
end

section
/-! SUPPORT. What SELECT gives, what a step does to BACKEND, and that commands neither read nor write it (42_backend.md
rules R181, R183 and R184). -/

namespace Sys2Proof.Machine

open Sys2Proof.Claims

section Select

variable {caps : List Capability} {accel : List AccelBackend}

theorem selectBackend_notPermitted : selectBackend caps accel false = 0 := rfl

/-- The search of SELECT passes over entries none of which matches. -/
theorem find?_eq_none_of_no_match (h : ∀ e, e ∈ accel → e.cap ∉ caps) :
    accel.find? (fun e => caps.contains e.cap) = none := by
  simpa using h

theorem selectBackend_of_no_match (permitted : Bool) (h : ∀ e, e ∈ accel → e.cap ∉ caps) :
    selectBackend caps accel permitted = 0 := by
  simp only [selectBackend, find?_eq_none_of_no_match h, ite_self]

/-- SELECT takes the first entry that matches (R181). -/
theorem selectBackend_of_first_match {before after : List AccelBackend} {e : AccelBackend}
    (hbefore : ∀ x, x ∈ before → x.cap ∉ caps) (he : e.cap ∈ caps) :
    selectBackend caps (before ++ e :: after) true = e.id := by
  rw [selectBackend, if_pos rfl, List.find?_append, find?_eq_none_of_no_match hbefore, Option.none_or,
    List.find?_cons_of_pos (by simpa using he)]

end Select

section BackendField

variable {s t : State}

/-- Serving an access or a host store, or nothing, keeps BACKEND (R183). -/
theorem step_keeps_backend (h : step s = .next t) (hn : NotPowerOn s) : t.backend = s.backend := by
  rcases step_cases h with ⟨-, rfl⟩ | ⟨a, rest, i, off, d, -, -, -, haccess⟩ | ⟨addr, bytes, rest, -, -, rfl⟩ |
    ⟨caps, permitted, rest, hp, -⟩
  · rfl
  · rcases haccess with ⟨-, rfl⟩ | ⟨-, -, -, rfl⟩ | ⟨-, -, r, -, rfl⟩ | ⟨w, d', -, -, -, rfl⟩ <;> rfl
  · rfl
  · exact absurd hp (hn caps permitted rest)

theorem step_powerOn {caps : List Capability} {permitted : Bool} {rest : List HostEvent}
    (hp : s.pending = .powerOn caps permitted :: rest) :
    step s = .next (powerOnState caps permitted { s with pending := rest }) := by
  simp [step, hp, serveEvent]

/-- Running a function of the active instance commutes with a change of BACKEND. -/
theorem onActive_withBackend {f : Digest → Host.Outcome Digest Fault Refusal} (b : Byte) (h : onActive s f = .next t) :
    onActive { s with backend := b } f = .next { t with backend := b } := by
  obtain ⟨d, d', hd, hf, rfl⟩ := onActive_eq_next.1 h
  exact onActive_of_some (s := { s with backend := b }) hd f hf

theorem exec_withBackend {c : Instr} (b : Byte) (h : exec c s = .next t) :
    exec c { s with backend := b } = .next { t with backend := b } := by
  rw [exec_eq_onActive] at h ⊢
  exact onActive_withBackend b h

theorem issueCommand_withBackend {w : Word} (b : Byte) (h : issueCommand w s = .next t) :
    issueCommand w { s with backend := b } = .next { t with backend := b } := by
  cases hw : decode w with
  | ok c =>
    simp only [issueCommand, hw] at h ⊢
    exact exec_withBackend b h
  | error _ =>
    simp only [issueCommand, hw] at h ⊢
    exact onActive_withBackend b h

theorem readReg_of_ne_backendId {r : Reg} (hr : r ≠ .backendId) (d : Digest) (b b' : Byte) :
    readReg b d r = readReg b' d r := by
  cases r with
  | backendId => exact absurd rfl hr
  | _ => rfl

end BackendField

end Sys2Proof.Machine
end

section
/-! The statements of 42_backend.md. -/

namespace Sys2Proof.Proofs

open Sys2Proof.Machine

/-- Settles O42: SELECT's search finds nothing where no entry matches, and else stops at the first that does. -/
theorem selectFirstMatch : Obligations.SelectFirstMatch := by
  refine ⟨rfl, fun caps accel => ⟨selectBackend_notPermitted, selectBackend_of_no_match, ?_⟩⟩
  rintro before e after rfl hbefore he
  exact selectBackend_of_first_match hbefore he

/-- Settles O43: of the events a step serves, power-on alone writes BACKEND. -/
theorem backendImmutable : Obligations.BackendImmutable := by
  refine ⟨rfl, fun s t h hn => step_keeps_backend h hn, ?_⟩
  intro s t caps permitted rest hp h
  injection (step_powerOn hp).symm.trans h with ht
  rw [← ht, powerOnState_backend]

/-- Settles O44: a command is a function of the active instance and of host memory, and so is an illegal word's exception. -/
theorem backendIndependence : Obligations.BackendIndependence :=
  ⟨fun _ _ _ b h => exec_withBackend b h, fun _ _ _ b h => issueCommand_withBackend b h,
    fun d _ b b' hr => readReg_of_ne_backendId hr d b b'⟩

end Sys2Proof.Proofs
end

section
/-! SUPPORT. The exceptions and the instances they leave alone: WRITE on a source range that passes 2^64 or that memory refuses, a
word that encodes no command, and the instances an access does not go to (60_exceptions.md rules R201, R202, R203 and R214). -/

namespace Sys2Proof.Machine

open Sys2Proof.Claims

section Exceptions

variable {s : State} {m : Memory} {d : Digest} {w : Word}

/-- A function of the active instance that answers a fault stops the machine with it. -/
theorem onActive_fault (hd : ActiveIs s d) {f : Digest → Host.Outcome Digest Fault Refusal} {r : Fault}
    (hf : f d = .fault r) : onActive s f = .fault r := by
  unfold ActiveIs at hd
  simp [onActive, hd, hf]

/-- The range check comes before any read, so it is the same for every memory (R202, R204). -/
theorem writeCommand_outOfRange (m : Memory) (hn : 0 < (srcLen d).toNat)
    (htop : 2 ^ 64 < (srcAddr d).toNat + (srcLen d).toNat) :
    writeCommand m d = .next (raiseException (.sourceRange (srcAddr d) (srcLen d)) d) :=
  writeCommand_eq_next.2 (.inl ⟨decide_eq_true ⟨hn, htop⟩, rfl⟩)

/-- WRITE faults exactly where its source lies in the address space and memory refuses a byte of it (R203). -/
theorem writeCommand_eq_fault {r : Fault} : writeCommand m d = .fault r ↔
    sourceOutOfRange (srcAddr d) (srcLen d) = false ∧
      memReadRange m (srcAddr d).toNat (srcLen d).toNat = none ∧ r = .sourceNotAdmitted := by
  unfold writeCommand
  cases sourceOutOfRange (srcAddr d) (srcLen d) with
  | true => simp
  | false => cases memReadRange m (srcAddr d).toNat (srcLen d).toNat <;> simp [eq_comm]

/-- A word that encodes no command raises IllegalCommand on the active instance (R201). -/
theorem issueCommand_illegal (hd : ActiveIs s d) (hw : ∀ c, w ≠ encode c) :
    issueCommand w s = .next (s.setActive (raiseException (.illegalCommand w) d)) := by
  cases hdec : decode w with
  | ok c => exact absurd (decode_ok_iff w c hdec) (hw c)
  | error _ =>
    simp only [issueCommand, hdec]
    exact onActive_of_some hd _ rfl

end Exceptions

section Idle

variable {s t : State}

theorem step_idle (h : s.pending = []) : step s = .next s := by
  simp [step, h]

/-- Serving an access keeps every instance but the one the access goes to: what it changes of the instances, it changes in the
place of that one (R214). -/
theorem step_access_getElem?_other {a : BusAccess} {rest : List HostEvent} {i j off : Nat}
    (hp : s.pending = .access a :: rest) (h : step s = .next t)
    (hroute : routeTarget Config.instBase Config.numInstances a.target = some (j, off)) (hij : i ≠ j) :
    t.digests[i]? = s.digests[i]? := by
  simp only [step, hp] at h
  obtain ⟨j', off', d, hroute', -, hserved⟩ := serveAccess_cases h
  obtain ⟨rfl, rfl⟩ := Prod.mk.inj (Option.some.inj (hroute.symm.trans hroute'))
  rcases hserved with ⟨-, rfl⟩ | ⟨-, -, -, rfl⟩ | ⟨-, -, r, -, rfl⟩ | ⟨w, d', -, -, -, rfl⟩
  case inl | inr.inr.inl => rfl
  case inr.inl | inr.inr.inr => exact List.getElem?_set_ne hij.symm

end Idle

end Sys2Proof.Machine
end

section
/-! The statements of 60_exceptions.md: the exceptions of a word and of a WRITE, the WRITE that has no step, and idle instances. -/

namespace Sys2Proof.Proofs

open Sys2Proof.Machine Sys2Proof.Claims

/-- Settles O20: the range check passes, and the read of the range stops at the refused byte. -/
theorem writeStuck : Obligations.WriteStuck := by
  intro s d k hd hin hk hrefused
  have hrange : sourceOutOfRange (srcAddr d) (srcLen d) = false :=
    decide_eq_false fun hout => Nat.not_le.2 hout.2 hin
  have hread : memReadRange s.mem (srcAddr d).toNat (srcLen d).toNat = none :=
    memReadRange_eq_none.2 ⟨k, hk, hrefused⟩
  have hrun : writeCommand s.mem d = .fault .sourceNotAdmitted := writeCommand_eq_fault.2 ⟨hrange, hread, rfl⟩
  exact onActive_fault hd hrun

/-- Settles O45: the four words are the encodings of the commands, so the word decodes to none. -/
theorem illegalWord : Obligations.IllegalWord := by
  intro s d w hd h1 h2 h3 h4
  have hw : ∀ c, w ≠ encode c
    | .reset => h1
    | .write => h2
    | .finalize => h3
    | .finalizeKeep => h4
  exact issueCommand_illegal hd hw

/-- Settles O52: with an empty queue a step is the identity, and an access moves at most the instance it is routed to. -/
theorem idleKeepsState : Obligations.IdleKeepsState :=
  ⟨fun _ hp => step_idle hp, fun _ _ _ _ _ _ _ hp h hroute hij => step_access_getElem?_other hp h hroute hij⟩

/-- Settles O19: WRITE raises SourceRange at its range check, before it looks at memory. -/
theorem writeRaisesSourceRange : Obligations.WriteRaisesSourceRange := by
  intro s d hd hn htop
  exact (becomes_iff hd).2 (writeCommand_outOfRange s.mem hn htop)

end Sys2Proof.Proofs
end

section
/-! SUPPORT. What the registers of an instance hold and read as right after power-on (10_state.md rules R23 to R36;
70_reset_and_hazards.md rule R231). -/

namespace Sys2Proof.Machine

/-- Power-on leaves one of NUM_INSTANCES like instances in every place (R230). -/
theorem eq_powerOn_of_mem_reset {d : Digest} (h : d ∈ State.reset.digests) : d = Digest.powerOn :=
  List.eq_of_mem_replicate h

theorem powerOn_state : Digest.powerOn.state =
    #v[Config.initLane, Config.initLane, Config.initLane, Config.initLane] := rfl

theorem srcAddr_powerOn : srcAddr Digest.powerOn = 0 := by decide

theorem srcLen_powerOn : srcLen Digest.powerOn = 0 := by decide

theorem statusWord_powerOn : statusWord Digest.powerOn = 0 := by decide

theorem numInstances_pos : 1 ≤ Config.numInstances := Nat.succ_pos _

/-- While RV = 0 a read of RESULT gives no value (R36). -/
theorem readReg_result_ne_word {d : Digest} (h : d.rv = false) (b : Byte) (k : Fin 4) (w : Word) :
    readReg b d (.result k) ≠ .word w := by
  rw [readReg_result_unwritten b h k]
  nofun

/-- The rows of the table of R231 that are stated as register reads. -/
theorem readReg_powerOn (b : Byte) : readReg b Digest.powerOn .status = .word 0 ∧
    readReg b Digest.powerOn .info = .word 0x00004010#32 ∧
    ∀ (k : Fin 4) (w : Word), readReg b Digest.powerOn (.result k) ≠ .word w := by
  refine ⟨?_, readReg_info b _, fun k w => readReg_result_ne_word rfl b k w⟩
  rw [readReg_status, statusWord_powerOn]

end Sys2Proof.Machine
end

section
/-! The statements of 70_reset_and_hazards.md: the values R231 gives at power-on. -/

namespace Sys2Proof.Proofs

open Sys2Proof.Machine Sys2Proof.Claims

/-- Settles O53: every instance is the power-on instance, and each row of R231's table is a field or a read of that one. -/
theorem powerOnValues : Obligations.PowerOnValues := by
  refine ⟨List.length_replicate, numInstances_pos, rfl, ?_⟩
  intro d hd
  obtain rfl := eq_powerOn_of_mem_reset hd
  exact ⟨powerOn_state, rfl, rfl, rfl, srcAddr_powerOn, srcLen_powerOn, rfl, rfl, readReg_powerOn⟩

end Sys2Proof.Proofs
end

section
/-! SUPPORT. What one step can make of one instance, said once, and from it what a step keeps of the invariant, of the status
bits and of the fault log (10_state.md rules R27, R33 and R40; 60_exceptions.md rule R207). -/

namespace Sys2Proof.Machine

open Sys2Proof.Claims

section Moves

variable {mem : Memory} {w : Word} {d e : Digest}

/-- Of an instance, a register write other than a command writes the SRC registers alone (R102). -/
theorem writeReg_eq_withSource (d : Digest) (r : Reg) (w : Word) :
    ∃ al ah ll lh, writeReg d r w = d.withSource al ah ll lh := by
  cases r with
  | srcAddrLo => exact ⟨w, d.srcAddrHi, d.srcLenLo, d.srcLenHi, rfl⟩
  | srcAddrHi => exact ⟨d.srcAddrLo, w, d.srcLenLo, d.srcLenHi, rfl⟩
  | srcLenLo => exact ⟨d.srcAddrLo, d.srcAddrHi, w, d.srcLenHi, rfl⟩
  | srcLenHi => exact ⟨d.srcAddrLo, d.srcAddrHi, d.srcLenLo, w, rfl⟩
  | _ => exact ⟨d.srcAddrLo, d.srcAddrHi, d.srcLenLo, d.srcLenHi, rfl⟩

/-- ILL, RANGE and the fault log of `e` are those of `d`. -/
def KeepsFaults (d e : Digest) : Prop := e.ill = d.ill ∧ e.range = d.range ∧ e.faultLog = d.faultLog

theorem SameInterface.keepsFaults (h : SameInterface d e) : KeepsFaults d e := by
  obtain ⟨-, hill, hrange, -, -, -, -, -, hlog, -⟩ := h
  exact ⟨hill.symm, hrange.symm, hlog.symm⟩

theorem finalizeDigest_keepsFaults (wb : Bool) (d : Digest) : KeepsFaults d (finalizeDigest wb d) := by
  have h := (padDigest_interface d).keepsFaults
  cases wb <;> exact h

theorem finalizeKeepDigest_keepsFaults (d : Digest) : KeepsFaults d (finalizeKeepDigest d) :=
  (padDigest_interface d).keepsFaults

/-- The three things an issued word can do to the sticky bits and the log: RESET clears the bits, an exception adds its
record, and everything else leaves both alone (R120, R201, R202). -/
theorem DigestMove.faults (h : DigestMove mem w d e) : KeepsFaults d e ∨ (w = encode .reset ∧ e = resetDigest d) ∨
    ∃ r : FaultRecord, r.Justified ∧ e = raiseException r d := by
  cases h with
  | reset word => exact .inr (.inl ⟨word, rfl⟩)
  | write _ p => exact .inl (digestWrite_interface d p).keepsFaults
  | sourceRange _ outOfRange =>
    have hout : 0 < (srcLen d).toNat ∧ 2 ^ 64 < (srcAddr d).toNat + (srcLen d).toNat := of_decide_eq_true outOfRange
    exact .inr (.inr ⟨.sourceRange _ _, hout, rfl⟩)
  | finalize => exact .inl (finalizeDigest_keepsFaults _ d)
  | finalizeKeep => exact .inl (finalizeKeepDigest_keepsFaults d)
  | illegal notCommand => exact .inr (.inr ⟨.illegalCommand _, notCommand, rfl⟩)

/-- Every command leaves `NBUF = LEN mod 64` (R27). -/
theorem DigestMove.counts (h : DigestMove mem w d e) (hd : d.CountsAgree) : e.CountsAgree := by
  cases h with
  | reset => rfl
  | write _ p => exact digestWrite_counts hd p
  | sourceRange | illegal => simpa [Digest.CountsAgree] using hd
  | finalize => exact padDigest_counts hd
  | finalizeKeep => exact hd

/-- No word clears RV: the finalize commands set it, the others keep it (R33). -/
theorem DigestMove.rv (h : DigestMove mem w d e) (hrv : d.rv = true) : e.rv = true := by
  cases h with
  | reset => exact hrv
  | write _ p => exact (digestWrite_interface d p).result_rv.2.trans hrv
  | sourceRange | illegal => simpa using hrv
  | finalize | finalizeKeep => rfl

end Moves

section Invariant

variable {mem : Memory} {off : Nat} {w : Word} {d e : Digest}

/-- The invariant of an instance is about LEN, NBUF and the faults alone. -/
theorem Digest.Inv.of_keepsFaults (h : d.Inv) (hcounts : e.CountsAgree) (hfaults : KeepsFaults d e) : e.Inv := by
  obtain ⟨-, ⟨hill, hrange⟩, hlog⟩ := h
  obtain ⟨hi, hr, hl⟩ := hfaults
  exact ⟨hcounts, ⟨fun h => hl ▸ hill (hi ▸ h), fun h => hl ▸ hrange (hr ▸ h)⟩, hl ▸ hlog⟩

theorem stickyLogged_raiseException (h : d.StickyLogged) (r : FaultRecord) : (raiseException r d).StickyLogged := by
  obtain ⟨hill, hrange⟩ := h
  cases r with
  | illegalCommand v =>
    refine ⟨fun _ => ⟨v, by simp⟩, fun h => ?_⟩
    obtain ⟨a, n, hmem⟩ := hrange h
    exact ⟨a, n, by simp [hmem]⟩
  | sourceRange a n =>
    refine ⟨fun h => ?_, fun _ => ⟨a, n, by simp⟩⟩
    obtain ⟨v, hmem⟩ := hill h
    exact ⟨v, by simp [hmem]⟩

theorem DigestMove.inv (h : DigestMove mem w d e) (hd : d.Inv) : e.Inv := by
  have ⟨hbefore, hsticky, hlog⟩ := hd
  have hcounts := h.counts hbefore
  rcases h.faults with hkept | ⟨-, rfl⟩ | ⟨r, hr, rfl⟩
  · exact hd.of_keepsFaults hcounts hkept
  · exact ⟨hcounts, ⟨nofun, nofun⟩, hlog⟩
  · refine ⟨hcounts, stickyLogged_raiseException hsticky r, ?_⟩
    simpa [or_imp, forall_and] using ⟨hlog, hr⟩

theorem WriteMove.inv (h : WriteMove mem off w d e) (hd : d.Inv) : e.Inv := by
  cases h with
  | store r =>
    obtain ⟨al, ah, ll, lh, he⟩ := writeReg_eq_withSource d r w
    rw [he]
    exact hd
  | command _ _ move => exact move.inv hd

theorem powerOn_inv {log : List FaultRecord} (h : ∀ r ∈ log, r.Justified) :
    ({ Digest.powerOn with faultLog := log } : Digest).Inv := ⟨rfl, ⟨nofun, nofun⟩, h⟩

end Invariant

section Steps

variable {s t : State} {i : Nat} {d e : Digest}

/-- What one step of `s` can make of instance `i`, which is `d`. -/
inductive InstanceStep (s : State) (i : Nat) (d : Digest) : Digest → Prop
  /-- The event is not for this instance, or it changes nothing of it. -/
  | kept : InstanceStep s i d d
  /-- A WRITE that has no step (R203). -/
  | stuck : InstanceStep s i d { d with stuck := true }
  /-- A register write to this instance (R102). -/
  | write (a : BusAccess) (rest : List HostEvent) (off : Nat) (w : Word) (e : Digest)
      (event : s.pending = .access a :: rest)
      (route : routeTarget Config.instBase Config.numInstances a.target = some (i, off)) (op : a.op = .write w)
      (move : WriteMove s.mem off w d e) : InstanceStep s i d e
  /-- A power-on event (R230). -/
  | powerOn (caps : List Capability) (permitted : Bool) (rest : List HostEvent)
      (event : s.pending = .powerOn caps permitted :: rest) :
      InstanceStep s i d { Digest.powerOn with faultLog := d.faultLog }

/-- What stands in place `i` after place `j` was given `x`. -/
theorem getElem?_set_cases {l : List Digest} (hd : l[i]? = some d) (j : Nat) (x : Digest) :
    (i = j ∧ (l.set j x)[i]? = some x) ∨ (l.set j x)[i]? = some d := by
  by_cases hij : j = i
  · subst hij
    exact .inl ⟨rfl, by simp [(List.getElem?_eq_some_iff.1 hd).1]⟩
  · exact .inr (by rw [List.getElem?_set_ne hij, hd])

/-- Every instance has its step: none is removed. -/
theorem step_instance (h : step s = .next t) (hd : s.digests[i]? = some d) :
    ∃ e, t.digests[i]? = some e ∧ InstanceStep s i d e := by
  rcases step_cases h with ⟨-, rfl⟩ | ⟨a, rest, j, off, x, hp, hroute, hx, haccess⟩ | ⟨addr, bytes, rest, -, -, rfl⟩ |
    ⟨caps, permitted, rest, hp, rfl⟩
  · exact ⟨d, hd, .kept⟩
  · rcases haccess with ⟨-, rfl⟩ | ⟨-, -, -, rfl⟩ | ⟨-, -, r, -, rfl⟩ | ⟨w, x', -, hop, hmove, rfl⟩
    · exact ⟨d, hd, .kept⟩
    · rcases getElem?_set_cases hd j { x with stuck := true } with ⟨rfl, hset⟩ | hset
      · obtain rfl := Option.some.inj (hd.symm.trans hx)
        exact ⟨_, hset, .stuck⟩
      · exact ⟨d, hset, .kept⟩
    · exact ⟨d, hd, .kept⟩
    · rcases getElem?_set_cases hd j x' with ⟨rfl, hset⟩ | hset
      · obtain rfl := Option.some.inj (hd.symm.trans hx)
        exact ⟨x', hset, .write a rest off w x' hp hroute hop hmove⟩
      · exact ⟨d, hset, .kept⟩
  · exact ⟨d, hd, .kept⟩
  · exact ⟨_, by simp [hd], .powerOn caps permitted rest hp⟩

/-- The step of a given instance before and after. -/
theorem instanceStep_of_step (h : step s = .next t) (hd : s.digests[i]? = some d) (he : t.digests[i]? = some e) :
    InstanceStep s i d e := by
  obtain ⟨e', he', hstep⟩ := step_instance h hd
  obtain rfl := Option.some.inj (he.symm.trans he')
  exact hstep

theorem InstanceStep.inv (h : InstanceStep s i d e) (hd : d.Inv) : e.Inv := by
  cases h with
  | kept | stuck => exact hd
  | write _ _ _ _ _ _ _ _ move => exact move.inv hd
  | powerOn =>
    obtain ⟨-, -, hlog⟩ := hd
    exact powerOn_inv hlog

/-- RV is cleared by power-on alone (R33). -/
theorem InstanceStep.rv (h : InstanceStep s i d e) (hn : NotPowerOn s) (hrv : d.rv = true) : e.rv = true := by
  cases h with
  | kept | stuck => exact hrv
  | write _ _ _ w _ _ _ _ move =>
    cases move with
    | store r =>
      obtain ⟨al, ah, ll, lh, he⟩ := writeReg_eq_withSource d r w
      rw [he]
      exact hrv
    | command _ _ move => exact move.rv hrv
  | powerOn caps permitted rest event => exact absurd event (hn caps permitted rest)

/-- The fault log grows by at most one record (R40). -/
theorem InstanceStep.faultLog (h : InstanceStep s i d e) :
    ∃ new : List FaultRecord, e.faultLog = d.faultLog ++ new ∧ new.length ≤ 1 := by
  have keeps : ∀ {x : Digest}, x.faultLog = d.faultLog →
      ∃ new : List FaultRecord, x.faultLog = d.faultLog ++ new ∧ new.length ≤ 1 :=
    fun hx => ⟨[], by simpa using hx, by simp⟩
  cases h with
  | kept | stuck | powerOn => exact keeps rfl
  | write _ _ _ w _ _ _ _ move =>
    cases move with
    | store r =>
      obtain ⟨al, ah, ll, lh, he⟩ := writeReg_eq_withSource d r w
      rw [he]
      exact keeps rfl
    | command _ _ move =>
      rcases move.faults with ⟨-, -, hlog⟩ | ⟨-, rfl⟩ | ⟨r, -, rfl⟩
      · exact keeps hlog
      · exact keeps rfl
      · exact ⟨[r], raiseException_faultLog r d, Nat.le_refl 1⟩

/-- ILL and RANGE are cleared by power-on and RESET alone (R207). -/
theorem InstanceStep.sticky (h : InstanceStep s i d e) (hn : NotPowerOn s)
    (hreset : ∀ a rest, s.pending = .access a :: rest →
      ¬(routeTarget Config.instBase Config.numInstances a.target = some (i, 0x00) ∧ a.op = .write 0x00000001#32)) :
    (d.ill = true → e.ill = true) ∧ (d.range = true → e.range = true) := by
  cases h with
  | kept | stuck => exact ⟨id, id⟩
  | powerOn caps permitted rest event => exact absurd event (hn caps permitted rest)
  | write a rest off w _ event route op move =>
    cases move with
    | store r =>
      obtain ⟨al, ah, ll, lh, he⟩ := writeReg_eq_withSource d r w
      rw [he]
      exact ⟨id, id⟩
    | command _ cmd move =>
      rcases move.faults with ⟨hill, hrange, -⟩ | ⟨rfl, -⟩ | ⟨r, -, rfl⟩
      · rw [hill, hrange]
        exact ⟨id, id⟩
      · exact absurd ⟨cmd ▸ route, op⟩ (hreset a rest event)
      · cases r with
        | illegalCommand => exact ⟨fun _ => rfl, id⟩
        | sourceRange => exact ⟨id, fun _ => rfl⟩

/-- A step adds and removes no instance, keeps memory canonical, and serves only instances that exist. -/
theorem step_keeps_shape (h : step s = .next t) (hmem : Memory.wf s.mem) (hactive : s.active < s.digests.length) :
    t.digests.length = s.digests.length ∧ Memory.wf t.mem ∧ t.active < t.digests.length := by
  rcases step_cases h with ⟨-, rfl⟩ | ⟨a, rest, i, off, d, -, -, hd, haccess⟩ | ⟨addr, bytes, rest, -, hin, rfl⟩ |
    ⟨caps, permitted, rest, -, rfl⟩
  · exact ⟨rfl, hmem, hactive⟩
  · have hi := (List.getElem?_eq_some_iff.1 hd).1
    rcases haccess with ⟨-, rfl⟩ | ⟨-, -, -, rfl⟩ | ⟨-, -, r, -, rfl⟩ | ⟨w, d', -, -, -, rfl⟩
    · exact ⟨rfl, hmem, hactive⟩
    · exact ⟨List.length_set, hmem, by simpa using hi⟩
    · exact ⟨rfl, hmem, hi⟩
    · exact ⟨List.length_set, hmem, by simpa using hi⟩
  · exact ⟨rfl, memWriteRange_wf hmem hin, hactive⟩
  · exact ⟨List.length_map _, hmem, by simpa using hactive⟩

/-- The invariant is kept by every step, and so is the number of instances. -/
theorem State.Inv.step (hs : s.Inv) (h : step s = .next t) : t.Inv ∧ t.digests.length = s.digests.length := by
  obtain ⟨hmem, hactive, hinv⟩ := hs
  obtain ⟨hlength, hmem', hactive'⟩ := step_keeps_shape h hmem hactive
  refine ⟨⟨hmem', hactive', fun e he => ?_⟩, hlength⟩
  obtain ⟨i, hi, he⟩ := List.getElem_of_mem he
  have hd := List.getElem?_eq_getElem (hlength ▸ hi)
  exact (instanceStep_of_step h hd (List.getElem?_eq_some_iff.2 ⟨hi, he⟩)).inv (hinv _ (List.getElem_mem _))

end Steps

section Status

/-- Bit by bit, STATUS is RV, ILL and RANGE under zeros (R33). -/
theorem statusWord_getLsbD (d : Digest) (k : Nat) : (statusWord d).getLsbD k =
    if k = 0 then d.rv else if k = 1 then d.ill else if k = 2 then d.range else false := by
  simp only [statusWord, BitVec.getLsbD_append, BitVec.getLsbD_ofBool, BitVec.getLsbD_zero]
  match k with
  | 0 | 1 | 2 | k + 3 => simp

end Status

end Sys2Proof.Machine
end

section
/-! The invariant of the machine, and what holds of the status bits and the fault log along every step. -/

namespace Sys2Proof.Proofs

open Sys2Proof.Machine Sys2Proof.Claims

/-- Settles O56: of the moves of an instance none breaks its invariant, and no step breaks the shape of the machine. -/
theorem invariantKept : Obligations.InvariantKept := fun _ _ hs h => hs.step h

/-- Settles O55: memory is empty, and every instance is the power-on instance. -/
theorem invariantAtReset : Obligations.InvariantAtReset := by
  refine ⟨⟨.nil, nofun⟩, ?_, fun d hd => ?_⟩
  · exact numInstances_pos.trans_eq List.length_replicate.symm
  · obtain rfl := eq_powerOn_of_mem_reset hd
    exact powerOn_inv (log := []) nofun

/-- Settles O14: STATUS is read bit by bit, a write to it is ignored, and no move of an instance clears RV. -/
theorem statusBits : Obligations.StatusBits := by
  refine ⟨fun d b => ⟨statusWord d, readReg_status b d, ?_, ?_, ?_, fun k hk => ?_⟩, ?_, ?_⟩
  · rw [statusWord_getLsbD, if_pos rfl]
  · rw [statusWord_getLsbD, if_neg (by decide), if_pos rfl]
  · rw [statusWord_getLsbD, if_neg (by decide), if_neg (by decide), if_pos rfl]
  · rw [statusWord_getLsbD, if_neg (by omega), if_neg (by omega), if_neg (by omega)]
  · intro s i w d rest h
    exact step_write_ignored (r := .status) h nofun rfl
  · intro s t i d e h hn hd he
    exact (instanceStep_of_step h hd he).rv hn

/-- Settles O47: of the moves of an instance, RESET alone clears a sticky bit. -/
theorem stickyUntilReset : Obligations.StickyUntilReset := by
  intro s t i d e h hn hd he hreset
  exact (instanceStep_of_step h hd he).sticky hn hreset

/-- Settles O48: of the moves of an instance, an exception alone writes the log, and it appends one record. -/
theorem faultLogOnlyGrows : Obligations.FaultLogOnlyGrows := by
  intro s t i d h hd
  obtain ⟨e, he, hstep⟩ := step_instance h hd
  obtain ⟨new, hlog, hnew⟩ := hstep.faultLog
  exact ⟨e, new, he, hlog, hnew⟩

end Sys2Proof.Proofs
end

section
/-! SUPPORT. The decoder on whole words, the step that serves a register write, the accesses that are refused, and the
window a bus address lies in (30_encoding.md rule R72; 40_digest_commands.md rules R102 to R104; 20_memory.md rule R61). -/

namespace Sys2Proof.Machine

open Sys2Proof.Claims

section Decoder

variable {w : Word} {c : Instr}

theorem decode_encode (c : Instr) : decode (encode c) = .ok c := by cases c <;> rfl

/-- A word is a command only when it is that command's word (R72). -/
theorem decode_eq_ok_iff : decode w = .ok c ↔ w = encode c :=
  ⟨decode_ok_iff w c, fun h => h ▸ decode_encode c⟩

theorem reservedField_encode (c : Instr) : reservedField (encode c) = 0 := by cases c <;> rfl

/-- The error of a word that is no command tells whether its OPCODE is a command's (R72, R74). -/
theorem decode_of_ne (h : ∀ c, w ≠ encode c) : decode w =
    if opcodeField w = 0x01#8 ∨ opcodeField w = 0x02#8 ∨ opcodeField w = 0x03#8 ∨ opcodeField w = 0x04#8 then
      .error .reservedBitSet else .error .unknownOpcode := by
  have h1 : w ≠ 0x00000001#32 := h .reset
  have h2 : w ≠ 0x00000002#32 := h .write
  have h3 : w ≠ 0x00000003#32 := h .finalize
  have h4 : w ≠ 0x00000004#32 := h .finalizeKeep
  rw [decode, if_neg h1, if_neg h2, if_neg h3, if_neg h4]

end Decoder

section RegisterWrites

variable {s : State} {i off : Nat} {w : Word} {d : Digest} {rest : List HostEvent}

/-- A write to CMD issues its word (R31, R104); a WRITE that has no step leaves the instance stuck (R203). -/
theorem issues_of_writesAt (h : WritesAt s i 0x00 w d rest) :
    Issues s i w d rest (issueCommand w (serving s i rest)) := by
  obtain ⟨hp, hd, hs⟩ := h
  have hstep : step s = settleWrite 0x00 w d (serving s i rest) (issueCommand w (serving s i rest)) :=
    (step_access_window (r := .cmd) (.write w) hp).trans (serveWindow_write (s := { s with pending := rest }) hd hs)
  constructor
  · intro ho
    rw [hstep, settleWrite_of_ne ho]
  · intro ho
    rw [ho] at hstep
    exact hstep

/-- A write to CMD of a word that is not WRITE always has its step. -/
theorem step_of_writesAt (h : WritesAt s i 0x00 w d rest) (hw : w ≠ encode .write) :
    step s = issueCommand w (serving s i rest) :=
  (issues_of_writesAt h).1 fun hfault => hw (issueCommand_fault hfault)

theorem activeIs_serving (h : WritesAt s i off w d rest) : ActiveIs (serving s i rest) d := by
  obtain ⟨-, hd, -⟩ := h
  exact hd

/-- The offsets of R102 at which a write has no effect. -/
theorem exists_ignoring_reg
    (h : off ∈ [0x04, 0x18, 0x1C, 0x20, 0x24, 0x28, 0x2C, 0x30, 0x34, 0x38, 0x3C]) :
    ∃ r : Reg, off = regOffset r ∧ r ≠ .cmd ∧ ∀ d w, writeReg d r w = d := by
  simp only [List.mem_cons, List.not_mem_nil, or_false] at h
  rcases h with h | h | h | h | h | h | h | h | h | h | h
  exacts [⟨.status, h, nofun, fun _ _ => rfl⟩, ⟨.backendId, h, nofun, fun _ _ => rfl⟩, ⟨.info, h, nofun, fun _ _ => rfl⟩,
    ⟨.result 0, h, nofun, fun _ _ => rfl⟩, ⟨.result 1, h, nofun, fun _ _ => rfl⟩, ⟨.result 2, h, nofun, fun _ _ => rfl⟩,
    ⟨.result 3, h, nofun, fun _ _ => rfl⟩, ⟨.reserved 0, h, nofun, fun _ _ => rfl⟩,
    ⟨.reserved 1, h, nofun, fun _ _ => rfl⟩, ⟨.reserved 2, h, nofun, fun _ _ => rfl⟩,
    ⟨.reserved 3, h, nofun, fun _ _ => rfl⟩]

end RegisterWrites

section Refusals

variable {s : State} {i off : Nat} {op : BusOp} {d : Digest}

theorem regOfOffset_eq_some {r : Reg} (h : regOfOffset off = some r) : off = regOffset r := by
  unfold regOfOffset at h
  split at h <;> cases h <;> rfl

theorem regOffset_mod_four (r : Reg) : regOffset r % 4 = 0 := by
  cases r with
  | result k | reserved k => simp only [regOffset]; omega
  | _ => rfl

theorem regOfOffset_misaligned (h : off % 4 ≠ 0) : regOfOffset off = none :=
  Option.eq_none_iff_forall_ne_some.2 fun r hr => h (regOfOffset_eq_some hr ▸ regOffset_mod_four r)

theorem serveAccess_window (i off : Nat) (op : BusOp) (s : State) :
    serveAccess ⟨.window i off, 32, op⟩ s = serveWindow op i off s := rfl

theorem serveWindow_outside (hd : s.digests[i]? = some d) (h : 0x40 ≤ off) :
    serveWindow op i off s = .refused .accessOutsideWindow := by
  simp [serveWindow, hd, h]

theorem serveWindow_misaligned (hd : s.digests[i]? = some d) (h : ¬0x40 ≤ off) (h4 : off % 4 ≠ 0) :
    serveWindow op i off s = .refused .accessMisaligned := by
  simp [serveWindow, hd, h, regOfOffset_misaligned h4]

end Refusals

section Routing

variable {base : Nat → DWord} {n i off : Nat} {a : DWord}

/-- Windows side by side from 0 are apart: the last of at most 2^58 ends by 2^64 (R61). -/
theorem windowsApart_sideBySide (h : n ≤ 2 ^ 58) : WindowsApart (fun i => BitVec.ofNat 64 (64 * i)) n := by
  intro j hj k hk hjk
  simp only [BitVec.toNat_ofNat]
  omega

/-- INST_BASE keeps the windows apart whatever the platform chose (R61). -/
theorem windowsApart_instBase : WindowsApart Config.instBase Config.numInstances := by
  by_cases h : WindowsApart Config.chosenBase Config.numInstances
  · have hbase : Config.instBase = Config.chosenBase := funext fun _ => if_pos h
    rwa [hbase]
  · have hbase : Config.instBase = fun i => BitVec.ofNat 64 (64 * i) := funext fun _ => if_neg h
    have hn : Config.numInstances ≤ 2 ^ 58 := Nat.mod_lt _ (by decide)
    rw [hbase]
    exact windowsApart_sideBySide hn

theorem toNat_base_add (hoff : (base i).toNat + off < 2 ^ 64) :
    (base i + BitVec.ofNat 64 off).toNat = (base i).toNat + off := by
  rw [BitVec.toNat_add, BitVec.toNat_ofNat]
  omega

theorem inWindow_eq_true {b a : DWord} : inWindow b a = true ↔ b.toNat ≤ a.toNat ∧ a.toNat < b.toNat + 64 :=
  decide_eq_true_iff

theorem resolveAddress_of_window (hi : i < n) (ha : inWindow (base i) a = true)
    (hothers : ∀ j, j < i → inWindow (base j) a = false) :
    resolveAddress base n a = some (i, a.toNat - (base i).toNat) := by
  have hfind : (List.range n).find? (fun j => inWindow (base j) a) = some i :=
    List.find?_range_eq_some.2 ⟨ha, List.mem_range.2 hi, fun j hj => by simp [hothers j hj]⟩
  rw [resolveAddress, hfind]

theorem resolveAddress_of_no_window (h : ∀ i, i < n → inWindow (base i) a = false) : resolveAddress base n a = none := by
  have hfind : (List.range n).find? (fun j => inWindow (base j) a) = none :=
    List.find?_eq_none.2 fun i hi => by simp [h i (List.mem_range.1 hi)]
  rw [resolveAddress, hfind]

/-- In windows that are apart, an address inside one reaches it (R30, R61). -/
theorem resolveAddress_base_add (hi : i < n) (hoff : off < 64) (htop : (base i).toNat + off < 2 ^ 64)
    (happart : WindowsApart base n) : resolveAddress base n (base i + BitVec.ofNat 64 off) = some (i, off) := by
  have ha := toNat_base_add htop
  rw [resolveAddress_of_window hi (inWindow_eq_true.2 (by omega)), ha, Nat.add_sub_cancel_left]
  intro j hj
  have hapart := happart j (by omega) i hi (by omega)
  rw [Bool.eq_false_iff, ne_eq, inWindow_eq_true]
  omega

end Routing

end Sys2Proof.Machine
end

section
/-! The statements about command words, register writes, refused accesses and bus addresses. -/

namespace Sys2Proof.Proofs

open Sys2Proof.Machine Sys2Proof.Claims

/-- Settles O1: decoding inverts encoding, and no command's word has a bit set in RSV. -/
theorem decodeMatchesWholeWord : Obligations.DecodeMatchesWholeWord := by
  intro w
  refine ⟨decode_eq_ok_iff, decode_eq_ok_iff, decode_eq_ok_iff, decode_eq_ok_iff, fun hop hrsv => ?_⟩
  have hw : ∀ c, w ≠ encode c := by
    rintro c rfl
    exact hrsv (reservedField_encode c)
  rw [decode_of_ne hw, if_pos]
  simpa [opcodeField] using hop

/-- Settles O2: the four words are the commands' encodings. -/
theorem fourWordsDecode : Obligations.FourWordsDecode :=
  ⟨decode_encode .reset, decode_encode .write, decode_encode .finalize, decode_encode .finalizeKeep, decode_encode⟩

/-- Settles O3: a write to CMD issues its word, which is a command's encoding or raises IllegalCommand; only WRITE can be
without a step. -/
theorem stepRunsCommandWrite : Obligations.StepRunsCommandWrite := by
  intro s i w d rest h
  refine ⟨?_, ?_, ?_, ?_, fun hw => ?_⟩
  · rintro rfl
    exact step_of_writesAt h (by decide)
  · rintro rfl
    exact issues_of_writesAt h
  · rintro rfl
    exact step_of_writesAt h (by decide)
  · rintro rfl
    exact step_of_writesAt h (by decide)
  · simp only [List.mem_cons, List.not_mem_nil, or_false, not_or] at hw
    obtain ⟨h1, h2, h3, h4⟩ := hw
    exact (step_of_writesAt h h2).trans (illegalWord _ _ _ (activeIs_serving h) h1 h2 h3 h4)

/-- Settles O4: issuing a word that decodes to `c` is `exec c`, and the word placed by `withFetchWord` is `c`'s encoding. -/
theorem stepIsExecOfDecoded : Obligations.StepIsExecOfDecoded := by
  constructor
  · intro s i w d rest c h hw _
    rw [← issueCommand_encode, ← decode_eq_ok_iff.1 hw]
    exact issues_of_writesAt h
  · intro s d c hd hs hfault
    have hword : BitVec.ofNat 32 ((encode c).toNat % 2 ^ 32) = encode c := by
      rw [Nat.mod_eq_of_lt (encode c).isLt, BitVec.ofNat_toNat, BitVec.setWidth_eq]
    have h : WritesAt (s.withFetchWord 32 (encode c).toNat) s.active 0x00 (encode c) d s.pending :=
      ⟨by rw [State.withFetchWord, hword]; rfl, hd, hs⟩
    rw [← issueCommand_encode] at hfault ⊢
    exact (issues_of_writesAt h).1 hfault

/-- Settles O5: INST_BASE keeps the windows apart, so the first window found to contain an address is the only one. -/
theorem busAddressReachesWindow : Obligations.BusAddressReachesWindow := by
  refine ⟨fun j k hj hk => windowsApart_instBase j hj k hk, ?_, ?_, ?_⟩
  · intro base n i off hi hoff htop hapart
    exact resolveAddress_base_add hi hoff htop fun j hj k hk => hapart j k hj hk
  · intro base n a h
    refine resolveAddress_of_no_window fun i hi => ?_
    have hout := h i hi
    rw [Bool.eq_false_iff, ne_eq, inWindow_eq_true]
    omega
  · intro s a op
    simp only [serveAccess]
    cases routeTarget Config.instBase Config.numInstances (.address a) <;> rfl

/-- Settles O6: the width is looked at first, then the window, then the alignment. -/
theorem otherAccessesRefused : Obligations.OtherAccessesRefused := by
  constructor
  · intro s target width op hwidth
    exact if_neg hwidth
  · intro s i off op d hd
    rw [serveAccess_window]
    exact ⟨fun hoff => serveWindow_outside hd hoff, fun hoff h4 => serveWindow_misaligned hd (by omega) h4⟩

/-- Settles O8: the offset is that of a register, and of the registers CMD issues a command, the SRC halves are stored and
the rest ignore the write. -/
theorem registerWrites : Obligations.RegisterWrites := by
  intro s i off w d rest h
  have hstores : ∀ {r : Reg}, r ≠ .cmd → off = regOffset r → Stores s i rest (writeReg d r w) :=
    fun hr hoff => stores_writeReg (hoff ▸ h) hr
  refine ⟨fun hoff => issues_of_writesAt (hoff ▸ h), hstores (r := .srcAddrLo) nofun, hstores (r := .srcAddrHi) nofun,
    hstores (r := .srcLenLo) nofun, hstores (r := .srcLenHi) nofun, fun hoff => ?_⟩
  obtain ⟨r, rfl, hr, hignored⟩ := exists_ignoring_reg hoff
  exact step_write_ignored h hr (hignored d w)

/-- Settles O9: a write to CMD issues its word, and a read gives the word 0. -/
theorem commandRegister : Obligations.CommandRegister :=
  ⟨fun _ _ _ _ _ h => issues_of_writesAt h, fun _ _ _ _ h => gives_readReg (r := .cmd) h⟩

/-- Settles O60: the read completes, and what RESULT`k` gives while RV = 0 is the record of the fault. -/
theorem unwrittenResultRead : Obligations.UnwrittenResultRead := by
  intro s i d rest k h hrv
  exact readReg_result_unwritten s.backend hrv k ▸ gives_readReg (r := .result k) h

end Sys2Proof.Proofs
end

section
/-! SUPPORT. The stream of an instance: DigestWrite, padding and the checksum are functions of it, and writes join
(40_digest_commands.md rules R111, R112, R124 and R132). -/

namespace Sys2Proof.Machine

open Sys2Proof.Claims

section Stream

variable {d e f : Digest} {p : List Byte}

theorem SameStream.symm (h : SameStream d e) : SameStream e d := by
  obtain ⟨hstate, hlen, hnbuf, hlive⟩ := h
  exact ⟨hstate.symm, hlen.symm, hnbuf.symm, hlive.symm⟩

theorem SameStream.trans (h : SameStream d e) (k : SameStream e f) : SameStream d f := by
  obtain ⟨hstate, hlen, hnbuf, hlive⟩ := h
  obtain ⟨kstate, klen, knbuf, klive⟩ := k
  exact ⟨hstate.trans kstate, hlen.trans klen, hnbuf.trans knbuf, hlive.trans klive⟩

/-- DigestWrite reads the stream alone: the stale bytes of BUF do not reach it (R112). -/
theorem SameStream.digestWrite (h : SameStream d e) (p : List Byte) : SameStream (digestWrite d p) (digestWrite e p) := by
  obtain ⟨hstate, hlen, hnbuf, hlive⟩ := h
  obtain ⟨dstate, dlen, dnbuf, dlive⟩ := digestWrite_stream d p
  obtain ⟨estate, elen, enbuf, elive⟩ := digestWrite_stream e p
  refine ⟨?_, ?_, Fin.ext ?_, ?_⟩
  · rw [dstate, estate, hstate, hlive]
  · rw [dlen, elen, hlen]
  · rw [dnbuf, enbuf, hnbuf]
  · rw [dlive, elive, hlive, hnbuf]

/-- Bytes absorbed up to their last whole block, and the rest absorbed with what follows (R150). -/
theorem absorb_append_drop (S : DigestState) (m y : List Byte) :
    absorb (absorb S m) (m.drop (64 * (m.length / 64)) ++ y) = absorb S (m ++ y) := by
  have hwhole : (m.take (64 * (m.length / 64))).length % 64 = 0 := by simp only [List.length_take]; omega
  rw [← absorb_take S m, ← absorb_append S _ hwhole, ← List.append_assoc, List.take_append_drop]

/-- Bytes written after each other leave the stream of their concatenation (R112). -/
theorem digestWrite_digestWrite (d : Digest) (x y : List Byte) :
    SameStream (digestWrite (digestWrite d x) y) (digestWrite d (x ++ y)) := by
  obtain ⟨xstate, xlen, xnbuf, xlive⟩ := digestWrite_stream d x
  obtain ⟨ystate, ylen, ynbuf, ylive⟩ := digestWrite_stream (digestWrite d x) y
  obtain ⟨state, len, nbuf, live⟩ := digestWrite_stream d (x ++ y)
  have hm : (liveBytes d ++ x).length = d.nbuf.val + x.length := by simp
  refine ⟨?_, ?_, Fin.ext ?_, ?_⟩
  · rw [ystate, xstate, xlive, state, ← hm, absorb_append_drop, List.append_assoc]
  · rw [ylen, xlen, len, List.length_append, BitVec.ofNat_add, BitVec.add_assoc]
  · rw [ynbuf, xnbuf, nbuf, List.length_append]
    omega
  · have hwhole : 64 * ((d.nbuf.val + x.length) / 64) ≤ (liveBytes d ++ x).length := by omega
    rw [ylive, xlive, xnbuf, live, ← List.drop_append_of_le_length hwhole, List.drop_drop, List.append_assoc,
      List.length_append]
    refine congrArg (List.drop · (liveBytes d ++ (x ++ y))) ?_
    omega

/-- However a byte stream is cut into writes, what is left is the stream of the whole (R112). -/
theorem foldl_digestWrite (d : Digest) (writes : List (List Byte)) :
    SameStream (writes.foldl digestWrite d) (digestWrite d writes.flatten) := by
  induction writes generalizing d with
  | nil =>
    rw [List.flatten_nil, digestWrite_nil]
    exact ⟨rfl, rfl, rfl, rfl⟩
  | cons x xs ih => exact (ih (digestWrite d x)).trans (digestWrite_digestWrite d x xs.flatten)

theorem SameStream.padDigest (h : SameStream d e) : SameStream (padDigest d) (padDigest e) := by
  have ⟨_, hlen, _⟩ := h
  simp only [Machine.padDigest, hlen]
  split
  · exact h
  · exact h.digestWrite _

/-- The checksum is a function of the stream (R112, R132). -/
theorem SameStream.checksum (h : SameStream d e) : checksum d = checksum e := by
  obtain ⟨hpad, -⟩ := h.padDigest
  obtain ⟨-, hlen, -⟩ := h
  simp only [Machine.checksum, finalTransform, hpad, hlen]

theorem resetDigest_sameStream (d : Digest) : SameStream (resetDigest d) Digest.powerOn := ⟨rfl, rfl, rfl, rfl⟩

theorem powerOn_sameStream (log : List FaultRecord) :
    SameStream { Digest.powerOn with faultLog := log } Digest.powerOn := ⟨rfl, rfl, rfl, rfl⟩

theorem raiseException_sameStream (r : FaultRecord) (d : Digest) : SameStream (raiseException r d) d := by
  simp [SameStream, liveBytes]

/-- STATE after bytes written to the empty stream: their whole blocks (R132). -/
theorem digestWrite_powerOn_state (m : List Byte) : (digestWrite Digest.powerOn m).state = absorb initialState m :=
  (digestWrite_stream Digest.powerOn m).1

/-- Padding the stream of `m` is writing `pad(m)` (R124, R132). -/
theorem padDigest_powerOn_state (m : List Byte) :
    (padDigest (digestWrite Digest.powerOn m)).state = absorb initialState (padStream m) := by
  have hlen : (digestWrite Digest.powerOn m).len.toNat % 64 = m.length % 64 := by
    simp [Digest.powerOn]
  by_cases haligned : m.length % 64 = 0
  · rw [padDigest_of_aligned (hlen.trans haligned), digestWrite_powerOn_state, padStream, haligned, Nat.sub_zero,
      Nat.mod_self, zeros_zero, List.append_nil]
  · have hpad : 64 - m.length % 64 = (64 - m.length % 64) % 64 := by omega
    rw [Machine.padDigest, hlen, if_neg haligned, (digestWrite_digestWrite _ _ _).1, digestWrite_powerOn_state,
      padStream, ← hpad]

/-- The checksum of the bytes written to the empty stream is their Hash (R132). -/
theorem checksum_digestWrite_powerOn (m : List Byte) : checksum (digestWrite Digest.powerOn m) = hashOf m := by
  have hlen : (digestWrite Digest.powerOn m).len = BitVec.ofNat 64 m.length :=
    (digestWrite_len _ m).trans (BitVec.zero_add _)
  rw [checksum, finalTransform, padDigest_powerOn_state, hlen, hashOf, streamHash]

/-- WRITE of the same bytes to the same stream leaves the same stream: read or refused, it is so for both (R52, R110). -/
theorem writeCommand_sameStream {m m' : Memory} {d' e' : Digest} (h : SameStream d e) (haddr : srcAddr e = srcAddr d)
    (hlen : srcLen e = srcLen d)
    (hmem : ∀ k, k < (srcLen d).toNat → memRead m' ((srcAddr d).toNat + k) = memRead m ((srcAddr d).toNat + k))
    (hd : writeCommand m d = .next d') (he : writeCommand m' e = .next e') : SameStream d' e' := by
  rw [writeCommand_eq_next] at hd he
  rw [haddr, hlen, memReadRange_congr hmem] at he
  rcases hd with ⟨hout, rfl⟩ | ⟨hin, p, hp, rfl⟩
  · rcases he with ⟨-, rfl⟩ | ⟨hin, -⟩
    · exact ((raiseException_sameStream _ d).trans h).trans (raiseException_sameStream _ e).symm
    · cases hout.symm.trans hin
  · rcases he with ⟨hout, -⟩ | ⟨-, q, hq, rfl⟩
    · cases hin.symm.trans hout
    · obtain rfl := Option.some.inj (hp.symm.trans hq)
      exact h.digestWrite p

end Stream

section Run

variable {s t : State} {c : Instr} {d : Digest}

/-- A command that completes has put what it makes of the active instance in the active place, and no more. -/
theorem exec_commandOn (h : exec c s = .next t) (hd : ActiveIs s d) :
    ∃ e, commandOn c s.mem d = .next e ∧ t = s.setActive e ∧ ActiveIs t e := by
  rw [exec_eq_onActive] at h
  obtain ⟨d', e, hd', hrun, rfl⟩ := onActive_eq_next.1 h
  obtain rfl := activeIs_unique hd hd'
  exact ⟨e, hrun, rfl, activeIs_setActive hd e⟩

/-- What the active instance is after RESET, WRITE and FINALIZE: the write runs on the reset instance, in the same memory. -/
theorem exec_reset_write_finalize {s1 s2 s3 : State} {d3 : Digest} (hd : ActiveIs s d) (h1 : exec .reset s = .next s1)
    (h2 : exec .write s1 = .next s2) (h3 : exec .finalize s2 = .next s3) (hd3 : ActiveIs s3 d3) :
    ∃ x, writeCommand s.mem (resetDigest d) = .next x ∧ d3 = finalizeDigest Config.finWriteback x := by
  obtain rfl := eq_setActive_of_exec_reset hd h1
  obtain ⟨x, hx, -, hx2⟩ := exec_commandOn h2 (activeIs_setActive hd _)
  obtain ⟨y, hy, -, hy3⟩ := exec_commandOn h3 hx2
  injection hy with hy
  exact ⟨x, hx, (activeIs_unique hd3 hy3).trans hy.symm⟩

end Run

section Finalize

variable {d : Digest}

/-- FINALIZE under either value of FIN_WRITEBACK delivers the one checksum (R126). -/
theorem finalizeDigest_result (wb : Bool) (d : Digest) : (finalizeDigest wb d).result = resultWords (checksum d) := by
  cases wb <;> rfl

/-- With FIN_WRITEBACK = false, FINALIZE is padding and result delivery (R124, R126). -/
theorem finalizeDigest_eq (d : Digest) :
    finalizeDigest Config.finWriteback d = deliverResult (checksum d) (padDigest d) := rfl

/-- LEN after padding: rounded up to a block boundary, modulo 2^64 (R128). -/
theorem padDigest_len_toNat (d : Digest) :
    (padDigest d).len.toNat = 64 * ((d.len.toNat + 63) / 64) % 2 ^ 64 := by
  have hlt := d.len.isLt
  by_cases haligned : d.len.toNat % 64 = 0
  · rw [padDigest_of_aligned haligned]
    omega
  · rw [padDigest, if_neg haligned, digestWrite_len, zeros_length, BitVec.toNat_add, BitVec.toNat_ofNat]
    omega

/-- The padding of a stream that has bytes staged: one Block on them and the zeros (R124). -/
theorem padDigest_of_staged (hcounts : d.CountsAgree) (h : d.len.toNat % 64 ≠ 0) :
    (padDigest d).state = absorb d.state (liveBytes d ++ zeros (64 - d.len.toNat % 64)) ∧
      (padDigest d).len = d.len + BitVec.ofNat 64 (64 - d.len.toNat % 64) ∧ (padDigest d).nbuf = 0 ∧
      (padDigest d).buf = overlay d.buf (d.len.toNat % 64) (zeros (64 - d.len.toNat % 64)) := by
  have hnbuf : d.nbuf.val = d.len.toNat % 64 := hcounts
  have hfill : d.nbuf.val + (zeros (64 - d.len.toNat % 64)).length = 64 := by rw [zeros_length]; omega
  obtain ⟨hstate, hlen, hn, -⟩ := digestWrite_stream d (zeros (64 - d.len.toNat % 64))
  rw [padDigest, if_neg h]
  refine ⟨hstate, by rw [hlen, zeros_length], Fin.ext (by rw [hn, hfill]; rfl), ?_⟩
  rw [digestWrite_buf_fill (by omega) hfill, hnbuf]

/-- Padding leaves no byte staged (R124, R128). -/
theorem padDigest_nbuf (hcounts : d.CountsAgree) : (padDigest d).nbuf = 0 := by
  by_cases haligned : d.len.toNat % 64 = 0
  · rw [padDigest_of_aligned haligned]
    exact Fin.ext (hcounts.trans haligned)
  · obtain ⟨-, -, hnbuf, -⟩ := padDigest_of_staged hcounts haligned
    exact hnbuf

/-- With LEN at a block boundary, FINALIZE after FINALIZE changes nothing (R128). -/
theorem finalizeDigest_idem_of_aligned (h : d.len.toNat % 64 = 0) :
    finalizeDigest Config.finWriteback (finalizeDigest Config.finWriteback d) = finalizeDigest Config.finWriteback d := by
  rw [finalizeDigest_of_aligned h, finalizeDigest_of_aligned (d := deliverResult _ d) h]
  rfl

end Finalize

end Sys2Proof.Machine
end

section
/-! The statements of 40_digest_commands.md about the stream, the checksum and the finalize commands. -/

namespace Sys2Proof.Proofs

open Sys2Proof.Machine Sys2Proof.Claims

/-- Settles O23: what is left of `x` after its last whole block is absorbed with `y`. -/
theorem digestWriteChunking : Obligations.DigestWriteChunking := digestWrite_digestWrite

/-- Settles O24: Block of the whole blocks is Block's loop over all the bytes, and a write that completes none only stages. -/
theorem digestWriteStages : Obligations.DigestWriteStages := by
  intro d p
  obtain ⟨hstate, hlen, hnbuf, hlive⟩ := digestWrite_stream d p
  have hm : (liveBytes d ++ p).length = d.nbuf.val + p.length := by simp
  refine ⟨?_, hlen, hnbuf, hlive, digestWrite_interface d p, fun hshort => ⟨?_, fun j h h64 => ?_⟩⟩
  · rw [block, if_pos (by simp only [List.length_take]; omega), hstate, ← hm, absorb_take]
  · rw [hstate, absorb_of_short _ (by omega)]
  · simp only [digestWrite_buf_short hshort, overlay_getElem]
    by_cases hj : j < d.nbuf.val
    · rw [if_neg (by omega), if_pos hj]
    · rw [if_pos (by omega), if_neg hj, List.getD_eq_getElem?_getD]

/-- Settles O25: FINALIZE is padding and result delivery, and padding writes zeros behind the valid bytes. -/
theorem finalizeEffect : Obligations.FinalizeEffect := by
  refine ⟨fun s d hd => (becomes_iff hd).2 rfl, fun d hcounts h => ?_⟩
  obtain ⟨hstate, hlen, hnbuf, hbuf⟩ := padDigest_of_staged hcounts h
  refine ⟨hstate, hlen, hnbuf, fun j hj hle => ?_⟩
  have hzero : (padDigest d).buf[j] = 0 := by
    simp only [hbuf, overlay_getElem, zeros_length]
    rw [if_pos (by omega)]
    exact List.getD_replicate 0 (by omega)
  exact hzero

/-- Settles O26: each value of FIN_WRITEBACK leaves the STATE and the RESULT that `finalizeDigest` writes for it. -/
theorem finalizeWriteback : Obligations.FinalizeWriteback :=
  ⟨rfl, fun d => ⟨rfl, rfl, (finalizeDigest_result true d).trans (finalizeDigest_result false d).symm,
    finalizeDigest_result false d⟩⟩

/-- Settles O27: padding leaves LEN at a block boundary, where FINALIZE pads nothing. -/
theorem secondFinalize : Obligations.SecondFinalize := by
  intro s t d e hd hcounts h he
  obtain ⟨e', hrun, -, he'⟩ := exec_commandOn h hd
  injection hrun with hrun
  obtain rfl : e = finalizeDigest Config.finWriteback d := (activeIs_unique he he').trans hrun.symm
  have hlen : (finalizeDigest Config.finWriteback d).len.toNat = 64 * ((d.len.toNat + 63) / 64) % 2 ^ 64 :=
    padDigest_len_toNat d
  refine ⟨hlen, padDigest_nbuf hcounts, (becomes_iff he).2 ?_, fun haligned => exec_fixed he ?_⟩
  · exact congrArg Host.Outcome.next (finalizeDigest_of_aligned (by omega))
  · exact congrArg Host.Outcome.next (finalizeDigest_idem_of_aligned haligned)

/-- Settles O30: both deliver the checksum of the instance they start from. -/
theorem finalizeKeepSameChecksum : Obligations.FinalizeKeepSameChecksum := by
  have hsame : ∀ d writeback, (finalizeDigest writeback d).result = (finalizeKeepDigest d).result := by
    intro d writeback
    rw [finalizeDigest_result, finalizeKeepDigest_eq, deliverResult_result]
  refine ⟨?_, hsame⟩
  intro s t u e f ht hu he hf
  obtain ⟨d, -, hd, -⟩ := exec_cases ht
  obtain ⟨e', hrun, -, he'⟩ := exec_commandOn ht hd
  obtain ⟨f', hrun', -, hf'⟩ := exec_commandOn hu hd
  injection hrun with hrun
  injection hrun' with hrun'
  rw [activeIs_unique he he', activeIs_unique hf hf', ← hrun, ← hrun', hsame]

/-- Settles O21: no range without bytes passes 2^64, and DigestWrite of no bytes is the identity. -/
theorem writeOfNothing : Obligations.WriteOfNothing := by
  intro s d hd hlen
  have hrun : writeCommand s.mem d = .next d := by
    refine writeCommand_eq_next.2 (.inr ⟨?_, [], ?_, (digestWrite_nil d).symm⟩)
    · simp [sourceOutOfRange, hlen]
    · simp [hlen, memReadRange]
  exact exec_fixed hd hrun

/-- Settles O17: after RESET both instances have the empty stream, and WRITE and FINALIZE are functions of the stream. -/
theorem resetErasesHistory : Obligations.ResetErasesHistory := by
  intro s s1 s2 s3 t t1 t2 t3 d e d3 e3 hd he haddr hlen hmem hs1 hs2 hs3 ht1 ht2 ht3 hd3 he3
  obtain ⟨x, hx, rfl⟩ := exec_reset_write_finalize hd hs1 hs2 hs3 hd3
  obtain ⟨y, hy, rfl⟩ := exec_reset_write_finalize he ht1 ht2 ht3 he3
  have hreset := (resetDigest_sameStream d).trans (resetDigest_sameStream e).symm
  have hwritten := writeCommand_sameStream hreset haddr hlen hmem hx hy
  rw [finalizeDigest_result, finalizeDigest_result, hwritten.checksum]

/-- Settles O31: RESET and power-on leave the empty stream, writes join, and the checksum is a function of the stream. -/
theorem checksumOfStream : Obligations.ChecksumOfStream := by
  refine ⟨?_, ?_, ?_, ?_⟩
  · intro s t e h he
    obtain ⟨d, -, hd, -⟩ := exec_cases h
    obtain ⟨_, hrun, -, he'⟩ := exec_commandOn h hd
    injection hrun with hrun
    rw [activeIs_unique he he', ← hrun]
    exact resetDigest_sameStream d
  · intro s t caps permitted rest i e hp h he
    injection (step_powerOn hp).symm.trans h with ht
    subst ht
    rw [powerOnState_digests, List.getElem?_map, Option.map_eq_some_iff] at he
    obtain ⟨d, -, rfl⟩ := he
    exact powerOn_sameStream d.faultLog
  · intro e he
    obtain rfl := eq_powerOn_of_mem_reset he
    exact powerOn_sameStream []
  · rintro s e writes he hempty u rfl
    have hwritten := (foldl_digestWrite e writes).trans (hempty.digestWrite writes.flatten)
    have hhash := hwritten.checksum.trans (checksum_digestWrite_powerOn writes.flatten)
    have hu := activeIs_setActive he (writes.foldl digestWrite e)
    refine ⟨_, _, (becomes_iff hu).2 rfl, (becomes_iff hu).2 rfl, ?_, ?_⟩
    · rw [finalizeDigest_result, hhash]
    · rw [finalizeKeepDigest_eq, deliverResult_result, hhash]

end Sys2Proof.Proofs
end

section
/-! SUPPORT. What each command keeps of its instance, commands and accesses of different instances, and the accesses
that a stuck one holds (40_digest_commands.md sections 2 to 5; 60_exceptions.md rules R203 and R212). -/

namespace Sys2Proof.Machine

open Sys2Proof.Claims

section CommandFrames

variable {m : Memory} {c : Instr} {d e : Digest}

/-- The commands other than WRITE complete on every instance, and raise nothing (R120, R124, R130). -/
theorem commandOn_raisesNothing (hc : c ≠ .write) (m : Memory) (d : Digest) : ∃ e, commandOn c m d = .next e ∧
    e.faultLog = d.faultLog ∧ (e.ill = true → d.ill = true) ∧ (e.range = true → d.range = true) := by
  have keeps : ∀ {e : Digest}, KeepsFaults d e →
      e.faultLog = d.faultLog ∧ (e.ill = true → d.ill = true) ∧ (e.range = true → d.range = true) :=
    fun ⟨hill, hrange, hlog⟩ => ⟨hlog, hill.symm.trans, hrange.symm.trans⟩
  cases c with
  | write => exact absurd rfl hc
  | reset => exact ⟨_, rfl, rfl, nofun, nofun⟩
  | finalize => exact ⟨_, rfl, keeps (finalizeDigest_keepsFaults _ d)⟩
  | finalizeKeep => exact ⟨_, rfl, keeps (finalizeKeepDigest_keepsFaults d)⟩

/-- WRITE keeps RV, ILL and RESULT, and RANGE and the log too where its source lies in the address space (R110, R202). -/
theorem writeCommand_frame (h : writeCommand m d = .next e) : e.rv = d.rv ∧ e.ill = d.ill ∧ e.result = d.result ∧
    (SourceInSpace d → e.range = d.range ∧ e.faultLog = d.faultLog) := by
  rcases writeCommand_eq_next.1 h with ⟨hout, rfl⟩ | ⟨-, p, -, rfl⟩
  · refine ⟨raiseException_rv _ d, raiseRange_ill d _ _, raiseException_result _ d, fun hin => ?_⟩
    have hpast : 0 < (srcLen d).toNat ∧ 2 ^ 64 < (srcAddr d).toNat + (srcLen d).toNat := of_decide_eq_true hout
    exact absurd hin (Nat.not_le.2 hpast.2)
  · obtain ⟨hill, hrange, hlog⟩ := (digestWrite_interface d p).keepsFaults
    obtain ⟨hresult, hrv⟩ := (digestWrite_interface d p).result_rv
    exact ⟨hrv, hill, hresult, fun _ => ⟨hrange, hlog⟩⟩

end CommandFrames

section Replace

variable {s t : State} {i j off : Nat} {x : Digest}

/-- The machine with instance `i` replaced by `x`. -/
def State.replace (s : State) (i : Nat) (x : Digest) : State := { s with digests := s.digests.set i x }

/-- An outcome with its next state, if there is one, changed by `g`. -/
def mapNext (g : State → State) : Host.Outcome State Fault Refusal → Host.Outcome State Fault Refusal
  | .next t => .next (g t)
  | .fault r => .fault r
  | .refused r => .refused r

theorem mapNext_eq_next {g : State → State} {o : Host.Outcome State Fault Refusal} :
    mapNext g o = .next t ↔ ∃ u, o = .next u ∧ t = g u := by
  cases o <;> simp [mapNext, eq_comm]

theorem replace_getElem?_other (h : i ≠ j) : (s.replace i x).digests[j]? = s.digests[j]? := List.getElem?_set_ne h

theorem setActive_replace (h : i ≠ s.active) (d : Digest) :
    (s.replace i x).setActive d = (s.setActive d).replace i x := by
  simp only [State.setActive, State.replace, List.set_comm d x h.symm]

/-- A function of the active instance does the same whatever another instance is (R28). -/
theorem onActive_replace (h : i ≠ s.active) (f : Digest → Host.Outcome Digest Fault Refusal) :
    onActive (s.replace i x) f = mapNext (·.replace i x) (onActive s f) := by
  have hactive : (s.replace i x).digests[(s.replace i x).active]? = s.digests[s.active]? := replace_getElem?_other h
  simp only [onActive, hactive]
  cases s.digests[s.active]? with
  | none => rfl
  | some d =>
    simp only
    cases f d with
    | next d' => exact congrArg Host.Outcome.next (setActive_replace h d')
    | fault | refused => rfl

theorem exec_replace (h : i ≠ s.active) (c : Instr) :
    exec c (s.replace i x) = mapNext (·.replace i x) (exec c s) := by
  rw [exec_eq_onActive, exec_eq_onActive]
  exact onActive_replace h _

theorem issueCommand_replace (h : i ≠ s.active) (w : Word) :
    issueCommand w (s.replace i x) = mapNext (·.replace i x) (issueCommand w s) := by
  cases hw : decode w with
  | ok c =>
    simp only [issueCommand, hw]
    exact exec_replace h c
  | error _ =>
    simp only [issueCommand, hw]
    exact onActive_replace h _

theorem serveWrite_replace (h : i ≠ s.active) (r : Reg) (w : Word) (d : Digest) :
    serveWrite r w d (s.replace i x) = mapNext (·.replace i x) (serveWrite r w d s) := by
  by_cases hr : r = .cmd
  · subst hr
    exact issueCommand_replace h w
  · rw [serveWrite_of_ne_cmd hr, serveWrite_of_ne_cmd hr, setActive_replace h]
    rfl

theorem settleWrite_replace (h : i ≠ s.active) (off : Nat) (w : Word) (d : Digest)
    (o : Host.Outcome State Fault Refusal) :
    settleWrite off w d (s.replace i x) (mapNext (·.replace i x) o) =
      mapNext (·.replace i x) (settleWrite off w d s o) := by
  cases o with
  | next | refused => rfl
  | fault f =>
    cases f
    have hstuck : (s.replace i x).becomeStuck d off (.write w) = (s.becomeStuck d off (.write w)).replace i x := by
      rw [State.becomeStuck, setActive_replace h]
      rfl
    exact congrArg Host.Outcome.next hstuck

/-- Serving an access to instance `j` does the same to everything else whatever instance `i` is (R212). -/
theorem serveWindow_replace (h : i ≠ j) (op : BusOp) (off : Nat) (s : State) :
    serveWindow op j off (s.replace i x) = mapNext (·.replace i x) (serveWindow op j off s) := by
  simp only [serveWindow, replace_getElem?_other h]
  cases s.digests[j]? with
  | none => rfl
  | some d =>
    simp only
    by_cases hoff : 0x40 ≤ off
    · simp only [if_pos hoff]
      rfl
    · simp only [if_neg hoff]
      cases regOfOffset off with
      | none => rfl
      | some r =>
        simp only
        cases d.stuck with
        | true => rfl
        | false =>
          cases op with
          | read => rfl
          | write w =>
            have hserve := serveWrite_replace (s := { s with active := j }) (x := x) h r w d
            have hsettle := settleWrite_replace (s := { s with active := j }) (x := x) h off w d
              (serveWrite r w d { s with active := j })
            exact (congrArg (settleWrite off w d _) hserve).trans hsettle

end Replace

section HeldAccesses

variable {s : State} {i off : Nat} {op : BusOp} {d : Digest} {rest : List HostEvent}

theorem regOfOffset_isSome : ∀ off, off < 0x40 → off % 4 = 0 → (regOfOffset off).isSome = true := by decide

/-- An aligned offset of the window is that of a register (R30, R58). -/
theorem exists_regOffset (hoff : off < 0x40) (h4 : off % 4 = 0) : ∃ r, off = regOffset r := by
  obtain ⟨r, hr⟩ := Option.isSome_iff_exists.1 (regOfOffset_isSome off hoff h4)
  exact ⟨r, regOfOffset_eq_some hr⟩

/-- An access to a register of a stuck instance is held (R203). -/
theorem serveWindow_stuck {r : Reg} (hd : s.digests[i]? = some d) (hs : d.stuck = true) :
    serveWindow op i (regOffset r) s = .next (s.hold i (regOffset r) op) := by
  simp [serveWindow, hd, hs, Nat.not_le.2 (regOffset_lt r), regOfOffset_regOffset]

end HeldAccesses

end Sys2Proof.Machine
end

section
/-! The statements about what commands keep, and about instances beside each other, stuck or not. -/

namespace Sys2Proof.Proofs

open Sys2Proof.Machine Sys2Proof.Claims

/-- Settles O46: DigestWrite keeps the interface side, and of the commands only WRITE raises anything. -/
theorem coreRaisesNothing : Obligations.CoreRaisesNothing := by
  constructor
  · intro d p
    obtain ⟨hill, hrange, hlog⟩ := (digestWrite_interface d p).keepsFaults
    exact ⟨hlog, hill, hrange⟩
  · intro c s d hc hd
    obtain ⟨e, hrun, hkept⟩ := commandOn_raisesNothing hc s.mem d
    exact ⟨e, (becomes_iff hd).2 hrun, hkept⟩

/-- Settles O49: a command writes the active place alone, and what it makes of the instance there is known by its name. -/
theorem commandFrame : Obligations.CommandFrame := by
  intro c s t d e h hd he
  obtain ⟨hal, hah, hll, hlh⟩ := (exec_move h hd he).keepsSource
  obtain ⟨e', hrun, rfl, he'⟩ := exec_commandOn h hd
  obtain rfl := activeIs_unique he' he
  refine ⟨setActive_outside s e', hal, hah, hll, hlh, ?_, ?_, ?_, ?_⟩
  · rintro rfl
    injection hrun with hrun
    subst hrun
    exact ⟨rfl, rfl, rfl⟩
  · rintro rfl
    exact writeCommand_frame hrun
  · rintro rfl
    injection hrun with hrun
    subst hrun
    exact finalizeDigest_keepsFaults _ d
  · rintro rfl
    injection hrun with hrun
    rw [finalizeKeepDigest_eq] at hrun
    subst hrun
    exact ⟨rfl, rfl, rfl, rfl, rfl, rfl, rfl⟩

/-- Settles O51: each command runs on its own instance and in the same memory in either order, and places `i` and `j` are
written in either order. -/
theorem instancesCommute : Obligations.InstancesCommute := by
  intro c c' s s1 s2 i j hij h1 h2
  obtain ⟨d, e, -, -, rfl⟩ := exec_cases h1
  have hreplaced : mapNext (·.replace i e) (exec c' { s with active := j }) = .next s2 :=
    (exec_replace (s := { s with active := j }) hij c').symm.trans h2
  obtain ⟨t1, ht1, rfl⟩ := mapNext_eq_next.1 hreplaced
  obtain ⟨d', e', -, -, rfl⟩ := exec_cases ht1
  have ht2 : exec c (({ s with active := i } : State).replace j e') = .next _ :=
    (exec_replace (s := { s with active := i }) hij.symm c).trans (congrArg (mapNext (·.replace j e')) h1)
  refine ⟨_, _, ht1, ht2, ?_⟩
  simp only [State.replace, State.setActive, List.set_comm e' e hij.symm]

/-- Settles O54: the step is the power-on of every instance, and what power-on does not name is kept. -/
theorem powerOnEvent : Obligations.PowerOnEvent := by
  intro s caps permitted rest hp
  exact ⟨_, step_powerOn hp, rfl, List.length_map _, fun i d hd => by simp [hd], rfl, rfl, rfl, rfl⟩

/-- Settles O57: the bytes are stored in turn, and a read after them tells the stored range from the rest of memory. -/
theorem hostStore : Obligations.HostStore := by
  intro s addr bytes rest hp hin
  have hstep : step s = .next { s with pending := rest, mem := memWriteRange s.mem addr.toNat bytes } := by
    simp only [step, hp, serveEvent, if_pos hin]
  refine ⟨_, hstep, fun k hk => ?_, fun a ha => ?_, rfl, rfl, rfl, rfl, rfl, rfl⟩
  · rw [memRead_memWriteRange, if_pos (by omega), Nat.add_sub_cancel_left]
  · rw [memRead_memWriteRange, if_neg (by omega)]

/-- Settles O58: issuing the WRITE answers no next state, which leaves its instance stuck, and a stuck instance holds every
access to one of its registers. -/
theorem stuckInstanceAlone : Obligations.StuckInstanceAlone := by
  constructor
  · intro s i d rest k h hin hk hrefused
    have hfault := writeStuck (serving s i rest) d k (activeIs_serving h) hin hk hrefused
    exact (issues_of_writesAt h).2 ((issueCommand_encode .write _).trans hfault)
  · intro s i off op d rest hp hd hs hoff h4
    obtain ⟨r, rfl⟩ := exists_regOffset (Nat.lt_succ_of_le hoff) h4
    exact (step_access_window op hp).trans (serveWindow_stuck (s := { s with pending := rest }) hd hs)

/-- Settles O59: serving an access to instance `j` commutes with replacing instance `i`. -/
theorem instancesIndependent : Obligations.InstancesIndependent := by
  intro s t i j off op rest x hij hp h
  have hserve : ∀ u : State, u.pending = s.pending → step u = serveWindow op j off { u with pending := rest } := by
    intro u hu
    simp only [step, hu, hp]
    rfl
  rw [hserve s rfl] at h
  have hreplace := serveWindow_replace (x := x) hij op off { s with pending := rest }
  rw [h] at hreplace
  exact (hserve (s.replace i x) rfl).trans hreplace

end Sys2Proof.Proofs
end

section
/-! SUPPORT. The AES round byte by byte: the table form gives each byte of it, and each of its three layers is a bijection
(41_transform.md rules R141 to R148). -/

namespace Sys2Proof.Machine

section Columns

variable {x y : Lane} {c r : Nat}

/-- Two lanes are equal when byte `r` of each column `c` is (R140). -/
theorem lane_ext (h : ∀ c r (hc : c < 4) (hr : r < 4), x[4 * c + r] = y[4 * c + r]) : x = y := by
  ext1 j hj
  have hbyte := h (j / 4) (j % 4) (by omega) (by omega)
  simpa only [Nat.div_add_mod] using hbyte

theorem shiftRows_getElem (x : Lane) (hc : c < 4) (hr : r < 4) :
    (shiftRows x)[4 * c + r] = x[4 * ((c + r) % 4) + r] := by
  have hdiv : (4 * c + r) / 4 = c := by omega
  have hmod : (4 * c + r) % 4 = r := by omega
  simp only [shiftRows, Vector.getElem_ofFn, hdiv, hmod]

theorem mixColumns_getElem (x : Lane) (hc : c < 4) (hr : r < 4) : (mixColumns x)[4 * c + r] =
    mixRow r x[4 * c] x[4 * c + 1] x[4 * c + 2] x[4 * c + 3] := by
  have hdiv : (4 * c + r) / 4 = c := by omega
  have hmod : (4 * c + r) % 4 = r := by omega
  simp only [mixColumns, Vector.getElem_ofFn, hdiv, hmod]

/-- Byte `r` of column `c` of the round: row `r` of MixColumns on the S-box's bytes of a diagonal (R144, R145, R148). -/
theorem keylessRound_getElem (d : Lane) (hc : c < 4) (hr : r < 4) : (keylessRound d)[4 * c + r] =
    mixRow r (sbox d[4 * c]) (sbox d[4 * ((c + 1) % 4) + 1]) (sbox d[4 * ((c + 2) % 4) + 2])
      (sbox d[4 * ((c + 3) % 4) + 3]) := by
  have h0 := shiftRows_getElem (subBytes d) hc (r := 0) (by omega)
  simp only [Nat.add_zero, Nat.mod_eq_of_lt hc] at h0
  simp only [keylessRound, mixColumns_getElem _ hc hr, h0, shiftRows_getElem _ hc (r := 1) (by omega),
    shiftRows_getElem _ hc (r := 2) (by omega), shiftRows_getElem _ hc (r := 3) (by omega), subBytes_getElem]

end Columns

section TableForm

theorem wordByte_xor (v w : Word) (j : Nat) : wordByte (v ^^^ w) j = wordByte v j ^^^ wordByte w j :=
  BitVec.extractLsb'_xor

/-- The bytes of a big-endian word (R11). -/
@[simp] theorem wordByte_wordBE (b0 b1 b2 b3 : Byte) :
    wordByte (wordBE b0 b1 b2 b3) 3 = b0 ∧ wordByte (wordBE b0 b1 b2 b3) 2 = b1 ∧
      wordByte (wordBE b0 b1 b2 b3) 1 = b2 ∧ wordByte (wordBE b0 b1 b2 b3) 0 = b3 := by
  refine ⟨?_, ?_, ?_, ?_⟩
  all_goals
    apply BitVec.eq_of_getLsbD_eq
    intro k hk
    simp only [wordByte, wordBE, BitVec.getLsbD_extractLsb', BitVec.getLsbD_append]
    grind

/-- Rotating a word right by whole bytes moves its bytes down (R147). -/
theorem wordByte_rotateRight (w : Word) {i j : Nat} (hi : i < 4) (hj : j < 4) :
    wordByte (w.rotateRight (8 * i)) j = wordByte w ((j + i) % 4) := by
  apply BitVec.eq_of_getLsbD_eq
  intro k hk
  have hrot : 8 * i % 32 = 8 * i := by omega
  simp only [wordByte, BitVec.getLsbD_extractLsb', BitVec.getLsbD_rotateRight, hrot]
  by_cases hlow : 8 * j + k < 32 - 8 * i
  · have hbit : 8 * i + (8 * j + k) = 8 * ((j + i) % 4) + k := by omega
    simp [hlow, hbit]
  · have hbit : 8 * j + k - (32 - 8 * i) = 8 * ((j + i) % 4) + k := by omega
    have hin : 8 * j + k < 32 := by omega
    simp [hlow, hbit, hin]

/-- The four table words add up to a column of MixColumns of SubBytes: table `i` holds column `i` of the matrix (R147). -/
theorem wordByte_te (a0 a1 a2 a3 : Byte) {r : Nat} (hr : r < 4) :
    wordByte (te 0 a0 ^^^ te 1 a1 ^^^ te 2 a2 ^^^ te 3 a3) (3 - r) =
      mixRow r (sbox a0) (sbox a1) (sbox a2) (sbox a3) := by
  have hte : ∀ i a, i < 4 → wordByte (te i a) (3 - r) = wordByte (te0 a) ((3 - r + i) % 4) :=
    fun i a hi => wordByte_rotateRight (te0 a) hi (by omega)
  simp only [wordByte_xor, hte 0 a0 (by omega), hte 1 a1 (by omega), hte 2 a2 (by omega), hte 3 a3 (by omega), te0]
  match r with
  | 0 | 1 | 2 | 3 => simp [mixRow]

theorem wordByte_columnWord (x : Lane) (c : Fin 4) {r : Nat} (hr : r < 4) :
    wordByte (columnWord x c) (3 - r) = x[4 * c.val + r] := by
  match r with
  | 0 | 1 | 2 | 3 => simp [columnWord]

/-- The column `i` to the right, at its byte `i` (R147). -/
theorem wordByte_columnWord_add (x : Lane) {c : Nat} (hc : c < 4) (i : Fin 4) :
    wordByte (columnWord x (⟨c, hc⟩ + i)) (3 - i.val) = x[4 * ((c + i.val) % 4) + i.val] := by
  rw [wordByte_columnWord _ _ i.isLt]
  rfl

/-- A byte of an output column: MixColumns on the S-box's bytes of a diagonal, and the key's byte (R147). -/
theorem wordByte_tableColumn (k d : Lane) {c r : Nat} (hc : c < 4) (hr : r < 4) :
    wordByte (tableColumn k d ⟨c, hc⟩) (3 - r) =
      mixRow r (sbox d[4 * c]) (sbox d[4 * ((c + 1) % 4) + 1]) (sbox d[4 * ((c + 2) % 4) + 2])
        (sbox d[4 * ((c + 3) % 4) + 3]) ^^^ k[4 * c + r] := by
  have h0 : wordByte (columnWord d ⟨c, hc⟩) 3 = d[4 * c] := wordByte_columnWord d ⟨c, hc⟩ (r := 0) (by decide)
  have h1 : wordByte (columnWord d (⟨c, hc⟩ + 1)) 2 = d[4 * ((c + 1) % 4) + 1] := wordByte_columnWord_add d hc 1
  have h2 : wordByte (columnWord d (⟨c, hc⟩ + 2)) 1 = d[4 * ((c + 2) % 4) + 2] := wordByte_columnWord_add d hc 2
  have h3 : wordByte (columnWord d (⟨c, hc⟩ + 3)) 0 = d[4 * ((c + 3) % 4) + 3] := wordByte_columnWord_add d hc 3
  rw [tableColumn, wordByte_xor, h0, h1, h2, h3, wordByte_te _ _ _ _ hr, wordByte_columnWord k ⟨c, hc⟩ hr]

theorem aesRoundTable_getElem (k d : Lane) {c r : Nat} (hc : c < 4) (hr : r < 4) :
    (aesRoundTable k d)[4 * c + r] = wordByte (tableColumn k d ⟨c, hc⟩) (3 - r) := by
  have hdiv : (4 * c + r) / 4 = c := by omega
  have hmod : (4 * c + r) % 4 = r := by omega
  simp only [aesRoundTable, Vector.getElem_ofFn, hdiv, hmod]

end TableForm

section Layers

/-- Multiplication by 2 is linear (R141). -/
theorem xtime_xor (a b : Byte) : xtime (a ^^^ b) = xtime a ^^^ xtime b := by
  have hcarry : ∀ p q : Bool, (if (p ^^ q) = true then 0x1B#8 else 0#8) =
      (if p = true then 0x1B#8 else 0#8) ^^^ (if q = true then 0x1B#8 else 0#8) := by decide
  simp only [xtime, BitVec.shiftLeft_xor_distrib, BitVec.msb_xor, hcarry]
  ac_rfl

/-- The square of the MixColumns matrix, on a byte `a` and the byte `b` two rows from it: 5 on `a` and 4 on `b`. -/
def mixTwice (a b : Byte) : Byte := xtime (xtime (a ^^^ b)) ^^^ a

theorem mixTwice_mixTwice (a b : Byte) : mixTwice (mixTwice a b) (mixTwice b a) = a := by
  simp only [mixTwice, xtime_xor]
  ac_nf
  simp

/-- MixColumns twice: in a row of the squared matrix, products with the neighbouring rows cancel. -/
theorem mixRow_mixRow (a0 a1 a2 a3 : Byte) :
    let b := fun r => mixRow r a0 a1 a2 a3
    mixRow 0 (b 0) (b 1) (b 2) (b 3) = mixTwice a0 a2 ∧ mixRow 1 (b 0) (b 1) (b 2) (b 3) = mixTwice a1 a3 ∧
      mixRow 2 (b 0) (b 1) (b 2) (b 3) = mixTwice a2 a0 ∧ mixRow 3 (b 0) (b 1) (b 2) (b 3) = mixTwice a3 a1 := by
  refine ⟨?_, ?_, ?_, ?_⟩
  all_goals
    simp only [mixRow, mulBy3, mixTwice, xtime_xor]
    ac_nf
    simp

theorem mixColumns_mixColumns_getElem (x : Lane) {c r : Nat} (hc : c < 4) (hr : r < 4) :
    (mixColumns (mixColumns x))[4 * c + r] = mixTwice x[4 * c + r] x[4 * c + (r + 2) % 4] := by
  have h0 := mixColumns_getElem x hc (r := 0) (by omega)
  simp only [Nat.add_zero] at h0
  obtain ⟨hrow0, hrow1, hrow2, hrow3⟩ := mixRow_mixRow x[4 * c] x[4 * c + 1] x[4 * c + 2] x[4 * c + 3]
  rw [mixColumns_getElem _ hc hr, h0, mixColumns_getElem x hc (r := 1) (by omega),
    mixColumns_getElem x hc (r := 2) (by omega), mixColumns_getElem x hc (r := 3) (by omega)]
  obtain rfl | rfl | rfl | rfl : r = 0 ∨ r = 1 ∨ r = 2 ∨ r = 3 := by omega
  exacts [hrow0, hrow1, hrow2, hrow3]

/-- The fourth power of the MixColumns matrix is the identity. -/
theorem mixColumns_four_times (x : Lane) : mixColumns (mixColumns (mixColumns (mixColumns x))) = x := by
  refine lane_ext fun c r hc hr => ?_
  have hback : ((r + 2) % 4 + 2) % 4 = r := by omega
  have htwo : (r + 2) % 4 < 4 := Nat.mod_lt _ (by decide)
  simp only [mixColumns_mixColumns_getElem _ hc hr, mixColumns_mixColumns_getElem _ hc htwo, hback, mixTwice_mixTwice]

/-- Rows shifted four times come back. -/
theorem shiftRows_four_times (x : Lane) : shiftRows (shiftRows (shiftRows (shiftRows x))) = x := by
  refine lane_ext fun c r hc hr => ?_
  have hback : ((((c + r) % 4 + r) % 4 + r) % 4 + r) % 4 = c := by omega
  have hlt : ∀ n, n % 4 < 4 := fun n => Nat.mod_lt n (by decide)
  simp only [shiftRows_getElem _ hc hr, shiftRows_getElem _ (hlt _) hr, hback]

/-- A map that four steps undo is a bijection. -/
theorem bijective_of_four_times {f : Lane → Lane} (h : ∀ x, f (f (f (f x))) = x) : Function.Bijective f :=
  Function.bijective_iff_has_inverse.2 ⟨fun x => f (f (f x)), h, h⟩

/-- The table's entry with the affine step undone is the inverse in GF(2^8), and inverting twice gives the byte back (R142). -/
theorem affineInverse_sbox_twice : ∀ a : Byte, affineInverse (sbox (affineInverse (sbox a))) = a := by decide +kernel

theorem affineInverse_injective : Function.Injective affineInverse := by
  intro s t h
  rw [affine_affineInverse s, affine_affineInverse t, h]

/-- The S-box undone: the affine step undone, then the inverse in GF(2^8) (R142). -/
theorem sbox_bijective : Function.Bijective sbox := by
  refine Function.bijective_iff_has_inverse.2 ⟨fun y => affineInverse (sbox (affineInverse y)), affineInverse_sbox_twice, ?_⟩
  exact fun y => affineInverse_injective (affineInverse_sbox_twice (affineInverse y))

theorem subBytes_bijective : Function.Bijective subBytes := by
  obtain ⟨undo, hleft, hright⟩ := Function.bijective_iff_has_inverse.1 sbox_bijective
  refine Function.bijective_iff_has_inverse.2 ⟨fun y => y.map undo, fun x => ?_, fun y => ?_⟩
  · ext1 j hj
    rw [Vector.getElem_map, subBytes_getElem, hleft]
  · ext1 j hj
    rw [subBytes_getElem, Vector.getElem_map, hright]

end Layers

section Chunks

/-- The round's two keys, of which the first cancels: steps 1 and 3 of the schedule on lane 1 (R160). -/
theorem aesRound_aesRound (k d e : Lane) :
    aesRound (aesRound k d) e = xorLane (xorLane (keylessRound e) (keylessRound d)) k := by
  rw [aesRound, aesRound, xorLane_assoc]

theorem block_nil (S : DigestState) : block S [] = some S := rfl

theorem block_of_whole {D : List Byte} (h : D.length % 64 = 0) : block S D = some (absorb S D) := if_pos h

theorem toList_chunkOfList {chunk : List Byte} (h : chunk.length = 64) : (chunkOfList chunk).toList = chunk := by
  apply List.ext_getElem
  · rw [Vector.length_toList, h]
  · intro j _ hj
    rw [Vector.getElem_toList, chunkOfList_getElem _ _ (by omega), ← List.getElem_eq_getD]

/-- One chunk: a round on each lane, keyed by the chunk's lane (R150). -/
theorem absorb_chunk (S : DigestState) {chunk : List Byte} (h : chunk.length = 64) : absorb S chunk =
    Vector.ofFn fun i => aesRound (Vector.ofFn fun j => chunk.getD (16 * i.val + j.val) 0) S[i] := by
  have hkey : ∀ i : Fin 4,
      chunkLane (chunkOfList chunk) i = Vector.ofFn fun j => chunk.getD (16 * i.val + j.val) 0 := by
    intro i
    ext1 j hj
    rw [chunkLane_getElem, chunkOfList_getElem _ _ (by omega), Vector.getElem_ofFn]
  conv_lhs => rw [← toList_chunkOfList h]
  simp only [absorb_toList, blockChunk, hkey]

/-- Block on lane 0: it is the data of rounds keyed by lane 0 of each chunk (R150). -/
theorem absorb_lane0 (S : DigestState) (D : List Byte) :
    (absorb S D)[0] = ((wholeChunks D).map (chunkLane · 0)).foldl (fun x k => aesRound k x) S[0] := by
  rw [absorb, List.foldl_map]
  generalize wholeChunks D = chunks
  induction chunks generalizing S with
  | nil => rfl
  | cons x xs ih =>
    rw [List.foldl_cons, List.foldl_cons, ih, blockChunk_getElem]
    rfl

/-- Byte `k` of chunk `j` of the data (R150). -/
theorem chunkAt_getElem (D : List Byte) (j : Nat) {k : Nat} (hk : k < 64) : (chunkAt D j)[k] = D.getD (64 * j + k) 0 := by
  simp [chunkAt, List.getD_eq_getElem?_getD, hk]

/-- Data that agree on bytes 0 to 15 of each chunk absorb into the same lane 0 (R158). -/
theorem absorb_lane0_congr (S : DigestState) {D D' : List Byte} (hlen : D.length = D'.length)
    (h : ∀ k, k % 64 < 16 → D[k]? = D'[k]?) : (absorb S D)[0] = (absorb S D')[0] := by
  have hlanes : (wholeChunks D).map (chunkLane · 0) = (wholeChunks D').map (chunkLane · 0) := by
    rw [wholeChunks, wholeChunks, hlen, List.map_map, List.map_map]
    refine List.map_congr_left fun j _ => ?_
    ext1 k hk
    have hbyte := h (64 * j + k) (by omega)
    simp [chunkAt_getElem, List.getD_eq_getElem?_getD, hbyte]
  rw [absorb_lane0, absorb_lane0, hlanes]

/-- The checksum's lane is the length's lane and lane 0 of STATE, three rounds on (R157, R158). -/
theorem finalizeTransform_lane0 (S : DigestState) (L : DWord) :
    (finalizeTransform S L)[0] = selfRound (selfRound (selfRound (xorLane S[0] (lengthLane L)))) := by
  rw [finalizeTransform, mixSchedule_lane0, injectLength_getElem]

end Chunks

end Sys2Proof.Machine
end

section
/-! The statements of 41_transform.md: the round, Block, and what reaches the checksum. -/

namespace Sys2Proof.Proofs

open Sys2Proof.Machine

/-- Settles O33: byte by byte, the table words add up to MixColumns of the S-box's bytes, and the key's byte follows. -/
theorem tableFormIsRound : Obligations.TableFormIsRound := by
  intro k d
  refine lane_ext fun c r hc hr => ?_
  rw [aesRoundTable_getElem k d hc hr, wordByte_tableColumn k d hc hr, aesRound, xorLane_getElem,
    keylessRound_getElem d hc hr]

/-- Settles O34: each of the three layers is a bijection. -/
theorem keylessRoundBijective : Obligations.KeylessRoundBijective :=
  (bijective_of_four_times mixColumns_four_times).comp
    ((bijective_of_four_times shiftRows_four_times).comp subBytes_bijective)

/-- Settles O35: the coefficients of a row of MixColumns add up to 1. -/
theorem roundOfUniformLane : Obligations.RoundOfUniformLane := keylessRound_replicate

/-- Settles O36: the first chunk is absorbed by itself, and on equal bytes the keyless round is the S-box. -/
theorem blockByChunks : Obligations.BlockByChunks := by
  have hcons : ∀ S chunk rest, chunk.length = 64 → rest.length % 64 = 0 →
      block S (chunk ++ rest) =
        block (Vector.ofFn fun i => aesRound (Vector.ofFn fun j => chunk.getD (16 * i.val + j.val) 0) S[i]) rest := by
    intro S chunk rest hchunk hrest
    have hlen : (chunk ++ rest).length % 64 = 0 := by rw [List.length_append]; omega
    rw [block_of_whole hlen, block_of_whole hrest, absorb_append S rest (by omega), absorb_chunk S hchunk]
  refine ⟨block_nil, hcons, fun S D h => if_neg h, ?_⟩
  have hzeros := hcons (Vector.replicate 4 (Vector.replicate 16 0)) (zeros 64) [] (zeros_length 64) rfl
  rw [List.append_nil, block_nil] at hzeros
  have hkey : ∀ i : Fin 4,
      (Vector.ofFn fun j : Fin 16 => (zeros 64).getD (16 * i.val + j.val) 0) = Vector.replicate 16 0 := by
    intro i
    ext1 j hj
    rw [Vector.getElem_ofFn, Vector.getElem_replicate]
    exact List.getD_replicate 0 (by omega)
  have hsbox : sbox 0 ^^^ 0 = (0x63 : Byte) := by decide
  simp only [hzeros, hkey, Fin.getElem_fin, Vector.getElem_replicate, aesRound_replicate, hsbox]
  refine congrArg some ?_
  ext1 i hi
  rw [Vector.getElem_ofFn, Vector.getElem_replicate]

/-- Settles O37: Block's loop over the chunks of one piece goes on over those of the next. -/
theorem blockComposes : Obligations.BlockComposes := by
  intro S A B hA hB
  have hAB : (A ++ B).length % 64 = 0 := by rw [List.length_append]; omega
  rw [block_of_whole hA, block_of_whole hAB, absorb_append S B hA, Option.bind_some, block_of_whole hB]

/-- Settles O40: lane 1 of step 1 keys both steps 2 and 3, and in step 3 it cancels on its own data. -/
theorem finalizeClosedForm : Obligations.FinalizeClosedForm := by
  intro S L a
  have hcancel : aesRound (aesRound a[1] a[0]) a[0] = a[1] := by
    rw [aesRound_aesRound, xorLane_self, xorLane_comm, xorLane_zero]
  rw [finalizeTransform, mixSchedule_eq, aesRound_aesRound a[1] a[0] a[2], hcancel]

/-- Settles O41: the checksum is lane 0, and lane 0 takes bytes 0 to 15 of each chunk and the length alone. -/
theorem checksumIgnoresOtherLanes : Obligations.ChecksumIgnoresOtherLanes := by
  intro m m' hlen h
  have hpadlen : (padStream m).length = (padStream m').length := by simp [padStream, hlen]
  have hpad : ∀ k, k % 64 < 16 → (padStream m)[k]? = (padStream m')[k]? := by
    intro k hk
    simp only [padStream, List.getElem?_append, hlen]
    rw [h k hk]
  rw [hashOf, hashOf, streamHash, streamHash, finalizeTransform_lane0, finalizeTransform_lane0,
    absorb_lane0_congr initialState hpadlen hpad, hlen]

end Sys2Proof.Proofs
end
